-- ==== Sys2Proof/Word.lean ====
section
/-! DEFINITION. The widths of the values that cross the command port or stand in state (00_scope.md R8, R10). -/

namespace Sys2Proof

/-- A word: a 32-bit unsigned value (00_scope.md R8 `W`, R16). -/
abbrev Word := BitVec 32

/-- An operand or a result: a 64-bit pattern (00_scope.md R8, 20_memory.md R36, R37). -/
abbrev Dword := BitVec 64

/-- A status code, or the `FAULT` register: 8 bits (20_memory.md R37, 10_state.md R22). -/
abbrev Code := BitVec 8

end Sys2Proof
end

