-- ==== Sys2Proof/Syntax.lean ====
section
/-! DEFINITION. The commands: the five rows of the opcode table (30_encoding.md R53, R54). -/

namespace Sys2Proof

/-- A decoded command word (30_encoding.md R53 to R57): its row and the fields the row leaves free. -/
inductive Instr where
  /-- `SEED` with seed length `L` in field `N` (40_generator.md R77). -/
  | seed (l : Nat)
  /-- `NEXTWORD` (40_generator.md R82). -/
  | nextword
  /-- `GETBITS n` and, with `h`, `GETBITS.H n` (41_bit_extractor.md R90). -/
  | getbits (n : Nat) (h : Bool)
  /-- `RANDINT` and, with `h`, `RANDINT.H` (42_ranged_integer.md R104). -/
  | randint (h : Bool)
  /-- `STATUS` (43_status.md R113). -/
  | status
  deriving DecidableEq, Repr

end Sys2Proof
end

