-- ==== Sys2Proof/WellFormed.lean ====
section
/-! DEFINITION. Which instructions a command word can hold (30_encoding.md R52, R56). -/

namespace Sys2Proof

/-- Field `N` is an unsigned 6-bit number, 0 to 63 (30_encoding.md R56): a seed length or a bit width above 63 has no
word. The widths and lengths that fail at execution are well formed all the same (R56). -/
def Instr.wf : Instr → Bool
  | .seed l => decide (l < 64)
  | .nextword => true
  | .getbits n _ => decide (n < 64)
  | .randint _ => true
  | .status => true

end Sys2Proof
end

