-- ==== Sys2Proof/Decode.lean ====
section
/-! DEFINITION. Decoding a command word by the table of 30_encoding.md R54 (R55), the reasons a word is illegal (R59),
and the encoder (R52, R64). -/

namespace Sys2Proof

/-- The rows of the opcode table (30_encoding.md R53). -/
inductive Mnemonic where
  | seed | nextword | getbits | randint | status
  deriving DecidableEq, Repr

/-- A row of the table of 30_encoding.md R54: a word `w` selects it when `(w & mask) == match`. -/
structure Row where
  mnemonic : Mnemonic
  /-- The column `match`. -/
  pattern : Word
  mask : Word
  deriving DecidableEq, Repr

/-- Why a word is illegal, one name for each point of 30_encoding.md R59. -/
inductive IllegalReason where
  /-- `OPC` is `0x00` or `0x06` to `0xFF`. -/
  | unknownOpcode
  /-- `RSV0 = 1`, or `RSV1 ≠ 0`. -/
  | reservedBitSet
  /-- `N ≠ 0` in `NEXTWORD`, `RANDINT` or `STATUS`. -/
  | countNotZero
  /-- `H = 1` in `SEED`, `NEXTWORD` or `STATUS`. -/
  | precisionNotZero
  deriving DecidableEq, Repr

/-- What `decode` answers: an instruction, or the verdict `ILLEGAL` (30_encoding.md R55). -/
inductive Verdict where
  | legal (i : Instr)
  | illegal (why : IllegalReason)
  deriving DecidableEq, Repr

/-! ### The fields of a command word (30_encoding.md R52) -/

/-- `OPC`, bits 7:0. -/
def fieldOPC (w : Word) : Nat := (w.extractLsb' 0 8).toNat

/-- `N`, bits 13:8, unsigned (30_encoding.md R56). -/
def fieldN (w : Word) : Nat := (w.extractLsb' 8 6).toNat

/-- `RSV0`, bit 14. -/
def fieldRSV0 (w : Word) : Bool := w.getLsbD 14

/-- `H`, bit 15 (30_encoding.md R57). -/
def fieldH (w : Word) : Bool := w.getLsbD 15

/-- `RSV1`, bits 31:16. -/
def fieldRSV1 (w : Word) : Nat := (w.extractLsb' 16 16).toNat

/-! ### Decoding -/

/-- The table of 30_encoding.md R54, in its order. -/
def opcodeTable : List Row :=
  [ ⟨.seed,     0x00000001, 0xFFFFC0FF⟩,
    ⟨.nextword, 0x00000002, 0xFFFFFFFF⟩,
    ⟨.getbits,  0x00000003, 0xFFFF40FF⟩,
    ⟨.randint,  0x00000004, 0xFFFF7FFF⟩,
    ⟨.status,   0x00000005, 0xFFFFFFFF⟩ ]

/-- A word selects a row when `(w & mask) == match` (30_encoding.md R54). -/
def Row.selects (r : Row) (w : Word) : Bool := (w &&& r.mask) == r.pattern

/-- A selected row's instruction, with fields `N` and `H` (30_encoding.md R55). -/
def Mnemonic.withFields (m : Mnemonic) (n : Nat) (h : Bool) : Instr :=
  match m with
  | .seed => .seed n
  | .nextword => .nextword
  | .getbits => .getbits n h
  | .randint => .randint h
  | .status => .status

/-- The name of an illegal word's reason (30_encoding.md R59); the four points are looked at in the rule's order
(DESIGN CHOICE of the name when several hold, safe: log entry 9; no response shows it). -/
def illegalReason (w : Word) : IllegalReason :=
  if fieldOPC w = 0 ∨ 6 ≤ fieldOPC w then .unknownOpcode
  else if fieldRSV0 w ∨ fieldRSV1 w ≠ 0 then .reservedBitSet
  else if fieldN w ≠ 0 ∧ (fieldOPC w = 2 ∨ fieldOPC w = 4 ∨ fieldOPC w = 5) then .countNotZero
  else .precisionNotZero

/-- `decode` (30_encoding.md R55): the row the word selects, or `ILLEGAL`. Total on all `2^32` words. -/
def decode (w : Word) : Verdict :=
  match opcodeTable.find? (fun r => r.selects w) with
  | some r => .legal (r.mnemonic.withFields (fieldN w) (fieldH w))
  | none => .illegal (illegalReason w)

/-! ### Encoding -/

/-- The operation codes of 30_encoding.md R53. -/
def Mnemonic.opc : Mnemonic → Nat
  | .seed => 0x01
  | .nextword => 0x02
  | .getbits => 0x03
  | .randint => 0x04
  | .status => 0x05

/-- A command word laid out by 30_encoding.md R52, reserved bits 0: `OPC | N << 8 | H << 15`. -/
def layout (opc n : Nat) (h : Bool) : Word :=
  BitVec.ofNat 32 opc ||| (BitVec.ofNat 32 n <<< 8) ||| (if h then 0x00008000 else 0)

/-- The command word of a well-formed instruction (30_encoding.md R52, R53, R64). -/
def encode : Instr → Word
  | .seed l => layout Mnemonic.seed.opc l false
  | .nextword => layout Mnemonic.nextword.opc 0 false
  | .getbits n h => layout Mnemonic.getbits.opc n h
  | .randint h => layout Mnemonic.randint.opc 0 h
  | .status => layout Mnemonic.status.opc 0 false

/-! ### Words as the opcode table numbers them -/

/-- The word whose low `nbits` bits are those of `w`, every higher bit 0. -/
def tableWord (nbits w : Nat) : Word := (BitVec.ofNat nbits w).setWidth 32

/-- The instruction the decoder reads from a word of `nbits` bits. The port takes whole words, so no byte order is
applied (20_memory.md R40), and no command word is longer than 32 bits (30_encoding.md R51). -/
def decodeTableWord (nbits w : Nat) : Option Instr :=
  if nbits ≤ 32 then
    match decode (tableWord nbits w) with
    | .legal i => some i
    | .illegal _ => none
  else none

end Sys2Proof
end

