-- ==== Sys2Proof/Machine/Params.lean ====
section
/-! DEFINITION. The fixed parameters of this hardware (00_scope.md R8). The tap offsets and shift amounts are the
published WELL1024a set the spec supplies from general knowledge (40_generator.md R70, R71; log entry 7). -/

namespace Sys2Proof.Machine

/-- `M1`, the first tap offset (40_generator.md R70). -/
abbrev Params.m1 : Fin 32 := 3

/-- `M2`, the second tap offset (40_generator.md R70). -/
abbrev Params.m2 : Fin 32 := 24

/-- `M3`, the third tap offset (40_generator.md R70). -/
abbrev Params.m3 : Fin 32 := 10

/-- The offset of `VRm1`: 31, "that is -1" (40_generator.md R70). -/
abbrev Params.back : Fin 32 := 31

/-- `SEEDLEN`, the seed words accepted (40_generator.md R80). -/
abbrev Params.seedLen : Nat := 32

/-- `STD_BITS`: the width above which a draw is HIGH (41_bit_extractor.md R87), and a STANDARD draw's full width. -/
abbrev Params.stdBits : Nat := 32

/-- `HIGH_BITS`: a HIGH draw's full width (42_ranged_integer.md R102). -/
abbrev Params.highBits : Nat := 53

/-- `MAXBITS`, the largest `GETBITS` width (41_bit_extractor.md R86). -/
abbrev Params.maxBits : Nat := 53

/-- `HIGH_THRESHOLD`: a span above it is HIGH (42_ranged_integer.md R99). -/
abbrev Params.highThreshold : Int := 2 ^ 32

/-- `CEILING`, the largest span (42_ranged_integer.md R101). -/
abbrev Params.ceiling : Int := 2 ^ 53

end Sys2Proof.Machine
end

