-- ==== Sys2Proof/Config.lean ====
section
/-! DEFINITION. The open parameter of 00_scope.md R9 that the block's reset takes. -/

namespace Sys2Proof

/-- `RESET_STATE` at power-up: the 32 words `S` holds after reset, "32 arbitrary words, unspecified"
(00_scope.md R9, 10_state.md R18, R31). A free value: it has no body, so nothing can be proved of it.
DESIGN CHOICE, safe: log entry 2. -/
opaque Config.resetState : Vector Word 32

end Sys2Proof
end

