-- ==== Sys2Proof/Machine/State.lean ====
section
/-! DEFINITION. The engine's state record (10_state.md R17), the host's side of the command port (20_memory.md R36,
R37, R43), the reasons a step can stop, and reset (70_reset_and_hazards.md R139). -/

namespace Sys2Proof.Machine

/-- The engine's whole state: "Nothing else persists from one command to the next" (10_state.md R17). -/
structure Engine where
  /-- `S[0..31]`, the state vector (10_state.md R18). -/
  S : Vector Word 32
  /-- `IDX`, the rotation index, 5 bits (10_state.md R19, R32). -/
  IDX : Fin 32
  /-- `SEEDED` (10_state.md R21). -/
  seeded : Bool
  /-- `FAULT`, the sticky cause, 8 bits (10_state.md R22). -/
  fault : Code
  deriving DecidableEq, Repr

/-- A command transaction `(cmd, a, b, c, seed)` as the host hands it to the port (20_memory.md R36). -/
structure Command where
  /-- `cmd`, the command word. -/
  word : Word
  /-- `a`, the operand `min` of `RANDINT`. -/
  a : Dword
  /-- `b`, the operand `max` of `RANDINT`. -/
  b : Dword
  /-- `c`, the operand `step` of `RANDINT`. -/
  c : Dword
  /-- `seed`, the word list of `SEED`. -/
  seed : List Word
  deriving DecidableEq, Repr

/-- A response `(status, result)` (20_memory.md R37). -/
structure Response where
  status : Code
  result : Dword
  deriving DecidableEq, Repr

/-- What the host does next at the port (20_memory.md R44). -/
inductive HostMove where
  /-- It issues a command (20_memory.md R36). -/
  | command (c : Command)
  /-- It asserts the reset input; `words` is the `RESET_STATE` that reset takes (70_reset_and_hazards.md R138, R139). -/
  | reset (words : Vector Word 32)
  deriving DecidableEq, Repr

/-- The engine and the host's side of its port. `inputs` and `responses` are the model's own fields, not storage of the
block (10_state.md R25): DESIGN CHOICE, log entry 1. -/
structure State where
  /-- The block's state (10_state.md R17). -/
  engine : Engine
  /-- What the host will do, the next move first: the order in which the port accepts (20_memory.md R43). -/
  inputs : List HostMove
  /-- The responses the host has received, oldest first: the observation of 20_memory.md R34. -/
  responses : List Response
  deriving DecidableEq, Repr

/-- The reasons for which the machine could stop with a fault: there are none. The spec's faults are responses and the
sticky `FAULT` register, ordinary steps to a next state (60_exceptions.md R121, R137), and "No behaviour of the block is
`stuck`" (93_implementation_defined.md). -/
inductive Fault where
  deriving DecidableEq, Repr

/-- The reasons for which a step is refused. -/
inductive Refusal where
  /-- Raised by `exec` for an instruction without a meaning; no arm raises it. Safe. -/
  | notModelled (mnemonic : String)
  /-- Raised by `SEED` with `L = 32` when the list does not hold exactly 32 words: the host has broken its duty, "The
  command has no meaning, and the model refuses it" (20_memory.md R39, 60_exceptions.md R137). Safe. -/
  | seedListLength
  deriving DecidableEq, Repr

/-- The engine after reset with `RESET_STATE = words` (70_reset_and_hazards.md R139, 10_state.md R31). -/
def Engine.reset (words : Vector Word 32) : Engine :=
  { S := words, IDX := 0, seeded := false, fault := 0x00 }

/-- The machine right after a power-up with `RESET_STATE = words`: "Power-up is a reset" (70_reset_and_hazards.md R138).
No host move is queued and nothing has been answered. -/
def State.powerUp (words : Vector Word 32) : State :=
  { engine := Engine.reset words, inputs := [], responses := [] }

/-- The machine right after reset, its words the free value `Config.resetState` (log entry 2). -/
def State.reset : State := State.powerUp Config.resetState

end Sys2Proof.Machine
end

