-- ==== Sys2Proof/Machine/StatusCode.lean ====
section
/-! DEFINITION. The status codes (60_exceptions.md R118). -/

namespace Sys2Proof.Machine

/-- The names of the complete table of 60_exceptions.md R118. -/
inductive Status where
  /-- Success, raised by every command. -/
  | ok
  /-- Error: the word selects no row (30_encoding.md R59). -/
  | illegalCommand
  /-- Error: a draw while `SEEDED = 0`. -/
  | notSeeded
  /-- Error: all 32 seed words are zero. -/
  | invalidSeed
  /-- Error: `n < 1` or `n > 53`. -/
  | invalidBitWidth
  /-- Error: `max ≤ min`, or `step < 1`. -/
  | invalidRange
  /-- Fault: `L ≠ 32`. -/
  | faultSeedLength
  /-- Fault: `max - min > 2^53`. -/
  | faultPrecisionCeiling
  /-- Faulted refusal: `FAULT ≠ 0x00` on entry. -/
  | faulted
  deriving DecidableEq, Repr

/-- The numeric values of 60_exceptions.md R118. -/
def Status.code : Status → Code
  | .ok => 0x00
  | .illegalCommand => 0x01
  | .notSeeded => 0x02
  | .invalidSeed => 0x03
  | .invalidBitWidth => 0x04
  | .invalidRange => 0x05
  | .faultSeedLength => 0x80
  | .faultPrecisionCeiling => 0x81
  | .faulted => 0xFF

/-- The four outcome kinds of 60_exceptions.md R117. -/
inductive OutcomeKind where
  | success | error | fault | faultedRefusal
  deriving DecidableEq, Repr

/-- The kind of each status (60_exceptions.md R117, R118). -/
def Status.kind : Status → OutcomeKind
  | .ok => .success
  | .illegalCommand | .notSeeded | .invalidSeed | .invalidBitWidth | .invalidRange => .error
  | .faultSeedLength | .faultPrecisionCeiling => .fault
  | .faulted => .faultedRefusal

end Sys2Proof.Machine
end

