-- ==== Sys2Proof/Machine/Ops.lean ====
section
/-! DEFINITION. The shared operations: the generator step (40_generator.md R69 to R75), the bit extractor's primitive
(41_bit_extractor.md R88 to R90), answering a command (00_scope.md R12), raising an error or a fault (60_exceptions.md
R120, R121), the checks every command shares (R122, R123), and reset. -/

namespace Sys2Proof.Machine

/-- What a step answers. -/
abbrev Result := Host.Outcome State Fault Refusal

/-! ### The generator -/

/-- `TPOS(t, v) = v ^ (v >> t)` (40_generator.md R71). -/
def tpos (t : Nat) (v : Word) : Word := v ^^^ (v >>> t)

/-- `TNEG(t, v) = v ^ (v << t)` (40_generator.md R71). -/
def tneg (t : Nat) (v : Word) : Word := v ^^^ (v <<< t)

/-- The index one below, circularly: `(i + 31) mod 32` (40_generator.md R74). -/
def prevIndex (i : Fin 32) : Fin 32 := i + Params.back

/-- The temporary `z0 = VRm1` of the generator step (40_generator.md R72). -/
def Engine.z0 (e : Engine) : Word := e.S[prevIndex e.IDX]

/-- The temporary `z1 = V0 ^ TPOS(8, VM1)` of the generator step (40_generator.md R72). -/
def Engine.z1 (e : Engine) : Word := e.S[e.IDX] ^^^ tpos 8 e.S[e.IDX + Params.m1]

/-- The temporary `z2 = TNEG(19, VM2) ^ TNEG(14, VM3)` of the generator step (40_generator.md R72). -/
def Engine.z2 (e : Engine) : Word := tneg 19 e.S[e.IDX + Params.m2] ^^^ tneg 14 e.S[e.IDX + Params.m3]

/-- `newV1`, stored at the old index (40_generator.md R72). -/
def Engine.newV1 (e : Engine) : Word := e.z1 ^^^ e.z2

/-- `newV0`, stored at the new index and returned (40_generator.md R72, R75). -/
def Engine.newV0 (e : Engine) : Word := tneg 11 e.z0 ^^^ tneg 7 e.z1 ^^^ tneg 13 e.z2

/-- The engine after one generator step: two words written, the index moved down by one (40_generator.md R72 to R74).
Every read is of the engine before the step. -/
def Engine.advance (e : Engine) : Engine :=
  { e with S := (e.S.set e.IDX e.newV1).set (prevIndex e.IDX) e.newV0, IDX := prevIndex e.IDX }

/-- `NextWord()`: the returned word, `S[IDX]` after the step, and the engine it leaves (40_generator.md R72, R75). -/
def Engine.nextWord (e : Engine) : Word × Engine := (e.advance.S[e.advance.IDX], e.advance)

/-! ### The bit extractor -/

/-- `mask(n) = 2^n - 1` on 64-bit values (00_scope.md R11). -/
def mask (n : Nat) : Dword := BitVec.ofNat 64 (2 ^ n - 1)

/-- `zext_64` of a word (20_memory.md R37). -/
def zext64 (w : Word) : Dword := w.setWidth 64

/-- `{w1, w2} = w1 * 2^32 + w2`: the first draw is the high word (00_scope.md R11, 41_bit_extractor.md R89). -/
def concatWords (w1 w2 : Word) : Dword := w1 ++ w2

/-- The internal primitive `GetBits(n, high)` (41_bit_extractor.md R90): one draw masked (R88), or two consecutive draws
concatenated and masked (R89). The caller has checked `SEEDED` and `n`. -/
def Engine.getBits (e : Engine) (n : Nat) (high : Bool) : Dword × Engine :=
  if high then
    let (w1, e1) := e.nextWord
    let (w2, e2) := e1.nextWord
    (concatWords w1 w2 &&& mask n, e2)
  else
    let (w, e1) := e.nextWord
    (zext64 w &&& mask n, e1)

/-! ### Answering a command -/

/-- The host moves left once the port's command is answered: the command is consumed, and the next one can be accepted
(20_memory.md R43). Moves that are no command stay. -/
def State.inputsAfterCommand (s : State) : List HostMove :=
  match s.inputs with
  | .command _ :: rest => rest
  | other => other

/-- `respond(status, result)` by a command that leaves the engine as `e`: its one response goes to the host
(00_scope.md R12, 20_memory.md R37). -/
def State.respond (s : State) (e : Engine) (st : Status) (result : Dword) : State :=
  { engine := e
    inputs := s.inputsAfterCommand
    responses := s.responses ++ [{ status := st.code, result := result }] }

/-- A command that succeeds, leaving the engine as `e` (20_memory.md R37). -/
def succeed (s : State) (e : Engine) (result : Dword) : Result := .next (s.respond e .ok result)

/-- `raise Error(code)`: the response `(code, 0)`, and no state changes (60_exceptions.md R120). -/
def raiseError (s : State) (st : Status) : Result := .next (s.respond s.engine st 0)

/-- `raise Fault(cause)`: `FAULT <- cause` and the response `(cause, 0)`; nothing else changes (60_exceptions.md R121).
The block's one way into an exceptional state; `Engine.reset` is the one way out (R128). -/
def raiseFault (s : State) (st : Status) : Result := .next (s.respond { s.engine with fault := st.code } st 0)

/-- The faulted refusal: the response `(FAULTED, 0)`, and no state changes (60_exceptions.md R122). -/
def refuseFaulted (s : State) : Result := raiseError s .faulted

/-- Step 2 of the check order: while `FAULT ≠ 0x00` the command is refused (60_exceptions.md R122, R123). -/
def unlessFaulted (s : State) (k : Result) : Result := if s.engine.fault ≠ 0x00 then refuseFaulted s else k

/-- Check 4c: a draw before the first accepted `SEED` raises `NOT_SEEDED` (60_exceptions.md R123, 10_state.md R33). -/
def whenSeeded (s : State) (k : Result) : Result := if s.engine.seeded then k else raiseError s .notSeeded

/-- An illegal command word: `FAULTED` when faulted, else `ILLEGAL_COMMAND` (60_exceptions.md R123 steps 2 and 3). -/
def rejectIllegal (s : State) : Result := unlessFaulted s (raiseError s .illegalCommand)

/-! ### Reset -/

/-- The host asserts reset: the engine is reset with the given `RESET_STATE`, and nothing is given back
(70_reset_and_hazards.md R138, R139; 20_memory.md R44). `rest` is what the host does afterwards. -/
def State.assertReset (s : State) (words : Vector Word 32) (rest : List HostMove) : State :=
  { s with engine := Engine.reset words, inputs := rest }

end Sys2Proof.Machine
end

