-- ==== Sys2Proof/Machine/Operands.lean ====
section
/-! DEFINITION. The operands a command finds at the port (20_memory.md R36, R38, R39; 30_encoding.md R58), and the
integers `RANDINT` computes from them (42_ranged_integer.md R97 to R99, R103). -/

namespace Sys2Proof.Machine

/-- A transaction with the given word and every operand 0 (30_encoding.md R64). -/
def bareCommand (w : Word) : Command := { word := w, a := 0, b := 0, c := 0, seed := [] }

/-- The transaction the host presents at the port: the next host move, if it is a command (20_memory.md R36). With no
command there, every operand reads as 0; no step runs an instruction then (log entry 1). -/
def State.presented (s : State) : Command :=
  match s.inputs with
  | .command c :: _ => c
  | _ => bareCommand 0

/-- `s64(x)`: the two's-complement reading of a 64-bit pattern (00_scope.md R10). -/
def s64 (x : Dword) : Int := x.toInt

/-- `u64(i)`: the 64-bit two's-complement pattern of an integer (00_scope.md R10, 42_ranged_integer.md R105). -/
def u64 (i : Int) : Dword := BitVec.ofInt 64 i

/-- `min = s64(a)` (42_ranged_integer.md R97). -/
def Command.min (c : Command) : Int := s64 c.a

/-- `max = s64(b)` (42_ranged_integer.md R97). -/
def Command.max (c : Command) : Int := s64 c.b

/-- `step = s64(c)` (42_ranged_integer.md R97). -/
def Command.step (c : Command) : Int := s64 c.c

/-- `span = max - min`, exact (42_ranged_integer.md R98). -/
def Command.span (c : Command) : Int := c.max - c.min

/-- `ceil(x / y)` for `x, y > 0` (00_scope.md R11). -/
def ceilDiv (x y : Int) : Int := (x + y - 1) / y

/-- `k = ceil(span / step)`, the step count (42_ranged_integer.md R98). -/
def Command.stepCount (c : Command) : Int := ceilDiv c.span c.step

/-- The range check: `max ≤ min`, or `step < 1` (42_ranged_integer.md R100). -/
def Command.badRange (c : Command) : Bool := decide (c.max ≤ c.min ∨ c.step < 1)

/-- The precision ceiling: `span > 2^53` (42_ranged_integer.md R101). -/
def Command.overCeiling (c : Command) : Bool := decide (Params.ceiling < c.span)

/-- Effective precision of `GETBITS`: HIGH when `H = 1` or `n > 32` (41_bit_extractor.md R87). -/
def bitsHigh (n : Nat) (h : Bool) : Bool := h || decide (Params.stdBits < n)

/-- Effective precision of `RANDINT`: HIGH when `H = 1` or `span > 2^32` (42_ranged_integer.md R99). -/
def Command.rangeHigh (c : Command) (h : Bool) : Bool := h || decide (Params.highThreshold < c.span)

/-- The full width of a draw: 32 bits STANDARD, 53 bits HIGH (42_ranged_integer.md R102). -/
def drawWidth (high : Bool) : Nat := if high then Params.highBits else Params.stdBits

/-- The reduction `i = min + step * (r mod k)` (42_ranged_integer.md R103). -/
def Command.reduce (c : Command) (r : Dword) : Int := c.min + c.step * ((r.toNat : Int) % c.stepCount)

/-- The width check of `GETBITS`: `n < 1` or `n > 53` (41_bit_extractor.md R86). -/
def badWidth (n : Nat) : Bool := decide (n < 1 ∨ Params.maxBits < n)

/-- All the seed words are zero (40_generator.md R79). -/
def allZero (ws : List Word) : Bool := ws.all (fun w => w == 0)

/-- Seed word `j` goes to `S[j]` (40_generator.md R78). -/
def seedVector (ws : List Word) : Vector Word 32 := Vector.ofFn (fun j => ws.getD j 0)

/-- The engine an accepted `SEED` leaves: `S` loaded, `IDX = 0`, `SEEDED = 1` (40_generator.md R77, R78). -/
def Engine.seedWith (e : Engine) (ws : List Word) : Engine :=
  { e with S := seedVector ws, IDX := 0, seeded := true }

end Sys2Proof.Machine
end

