-- ==== Sys2Proof/Machine/BitExtractor.lean ====
section
/-! DEFINITION. The bit extractor's command: `GETBITS` (41_bit_extractor.md R85 to R92). -/

namespace Sys2Proof.Machine

/-- `GETBITS n` and `GETBITS.H n` (41_bit_extractor.md R90): `FAULTED`, `NOT_SEEDED` and `INVALID_BIT_WIDTH` in that
order, then `GetBits(n, high)` with the effective precision of R87. -/
def execGetbits (n : Nat) (h : Bool) (s : State) : Result :=
  unlessFaulted s (whenSeeded s
    (if badWidth n then raiseError s .invalidBitWidth
     else succeed s (s.engine.getBits n (bitsHigh n h)).2 (s.engine.getBits n (bitsHigh n h)).1))

end Sys2Proof.Machine
end

