-- ==== Sys2Proof/Machine/Generator.lean ====
section
/-! DEFINITION. The generator unit's commands: `SEED` (40_generator.md R77 to R81) and `NEXTWORD` (R82). -/

namespace Sys2Proof.Machine

/-- `SEED {w0, ..., w(L-1)}` (40_generator.md R77): `FAULTED`, then the length fault whatever the list holds (R80,
20_memory.md R39), then the refusal of a list that is not of 32 words (R39; its place in the order: log entry 5), then
the all-zero seed (R79), then the load (R78). It does not need `SEEDED = 1`. -/
def execSeed (l : Nat) (s : State) : Result :=
  unlessFaulted s
    (if l ≠ Params.seedLen then raiseFault s .faultSeedLength
     else if s.presented.seed.length ≠ Params.seedLen then .refused .seedListLength
     else if allZero s.presented.seed then raiseError s .invalidSeed
     else succeed s (s.engine.seedWith s.presented.seed) 0)

/-- `NEXTWORD` (40_generator.md R82): one generator word, zero-extended. -/
def execNextword (s : State) : Result :=
  unlessFaulted s (whenSeeded s (succeed s s.engine.nextWord.2 (zext64 s.engine.nextWord.1)))

end Sys2Proof.Machine
end

