-- ==== Sys2Proof/Machine/RangedInteger.lean ====
section
/-! DEFINITION. The ranged integer mapper's command: `RANDINT` (42_ranged_integer.md R96 to R112). -/

namespace Sys2Proof.Machine

/-- The draw `r` of `RANDINT`: the full width of the effective precision (42_ranged_integer.md R102). -/
def Engine.draw (e : Engine) (high : Bool) : Dword × Engine := e.getBits (drawWidth high) high

/-- `RANDINT min, max, step` and `RANDINT.H min, max, step` (42_ranged_integer.md R104): `FAULTED`, `NOT_SEEDED`,
`INVALID_RANGE` and the precision ceiling in that order, then one draw and one reduction (R102, R103). -/
def execRandint (h : Bool) (s : State) : Result :=
  unlessFaulted s (whenSeeded s
    (if s.presented.badRange then raiseError s .invalidRange
     else if s.presented.overCeiling then raiseFault s .faultPrecisionCeiling
     else succeed s (s.engine.draw (s.presented.rangeHigh h)).2
       (u64 (s.presented.reduce (s.engine.draw (s.presented.rangeHigh h)).1))))

end Sys2Proof.Machine
end

