-- ==== Sys2Proof/Machine/Flags.lean ====
section
/-! DEFINITION. The flags: the status word, a view of `SEEDED` and `FAULT` (10_state.md R27, R28). The block has no
condition codes. -/

namespace Sys2Proof.Machine

/-- `FAULTED`: 1 if and only if `FAULT ≠ 0x00` (10_state.md R28). -/
def Engine.isFaulted (e : Engine) : Bool := e.fault != 0x00

/-- A bit as a 64-bit value. -/
def bit64 (b : Bool) : Dword := if b then 1 else 0

/-- The status word `(FAULT << 8) | ((FAULT != 0x00) << 1) | SEEDED` (43_status.md R113, 10_state.md R28). -/
def Engine.statusWord (e : Engine) : Dword :=
  (e.fault.setWidth 64 <<< 8) ||| (bit64 e.isFaulted <<< 1) ||| bit64 e.seeded

end Sys2Proof.Machine
end

