-- ==== Sys2Proof/Machine/StatusRead.lean ====
section
/-! DEFINITION. The status read: `STATUS` (43_status.md R113 to R116). -/

namespace Sys2Proof.Machine

/-- `STATUS` (43_status.md R113): the status word, in every state, the faulted one included (R114); no state changes. -/
def execStatus (s : State) : Result := succeed s s.engine s.engine.statusWord

end Sys2Proof.Machine
end

