-- ==== Sys2Proof/Machine/Dispatch.lean ====
section
/-! DEFINITION. One arm per constructor of `Instr`, each a direct call of its meaning. -/

namespace Sys2Proof.Machine

def exec (i : Instr) (s : State) : Host.Outcome State Fault Refusal :=
  match i with
  | .seed l => Sys2Proof.Machine.execSeed l s
  | .nextword => Sys2Proof.Machine.execNextword s
  | .getbits n h => Sys2Proof.Machine.execGetbits n h s
  | .randint h => Sys2Proof.Machine.execRandint h s
  | .status => Sys2Proof.Machine.execStatus s

end Sys2Proof.Machine
end

