-- ==== Sys2Proof/Machine/Port.lean ====
section
/-! DEFINITION. The command port: what one step does with the host's next move (20_memory.md R36, R37, R43;
60_exceptions.md R123). -/

namespace Sys2Proof.Machine

/-- One command at the port: its word is decoded, and the instruction runs or the word is rejected (60_exceptions.md
R123). The checks of steps 1 and 2 stand in the meanings: every one but `STATUS` answers `FAULTED` first, and only the
word `0x00000005` decodes to `STATUS` (43_status.md R114). -/
def State.runCommand (s : State) (c : Command) : Result :=
  match decode c.word with
  | .legal i => exec i s
  | .illegal _ => rejectIllegal s

/-- The host's next move: a command, or the reset input (70_reset_and_hazards.md R138). With none, the block "waits for
commands" (R140) and takes no step of its own (00_scope.md R15): nothing changes (log entry 3). -/
def State.acceptNext (s : State) : Result :=
  match s.inputs with
  | [] => .next s
  | .reset words :: rest => .next (s.assertReset words rest)
  | .command c :: _ => s.runCommand c

/-- The seed list that goes with a word whose operands are all zero: `L` zero words for a `SEED`, since the host
delivers exactly `L` words (20_memory.md R39), and nothing for the others (30_encoding.md R64). -/
def zeroSeedFor (w : Word) : List Word :=
  match decode w with
  | .legal (.seed l) => List.replicate l 0
  | _ => []

/-- The transaction of a word with zero operands (log entry 4). -/
def zeroOperandCommand (w : Word) : Command := { bareCommand w with seed := zeroSeedFor w }

/-- The host presents a command before everything it had queued. -/
def State.present (s : State) (c : Command) : State := { s with inputs := .command c :: s.inputs }

end Sys2Proof.Machine
end

