-- ==== Sys2Proof/Machine/Step.lean ====
section
/-! DEFINITION. The step: one host move, whole, with its response (00_scope.md R14, 20_memory.md R43). -/

namespace Sys2Proof.Machine

/-- One step of the machine (00_scope.md R14: "One command is one step; nothing happens between commands"). -/
def step (s : State) : Host.Outcome State Fault Refusal := s.acceptNext

/-- `s` with the command of a table word presented next. The block fetches nothing (10_state.md R26): the host sends the
command, with every operand zero (log entry 4). -/
def State.withFetchWord (s : State) (nbits w : Nat) : State := s.present (zeroOperandCommand (tableWord nbits w))

end Sys2Proof.Machine
end

