-- ==== Sys2Proof/Machine/Assembler.lean ====
section
/-! DEFINITION. The assembler syntax: lines, pseudo-instructions, assembly, disassembly and the listing form
(30_encoding.md R63 to R67). Text is a list of characters. Where R63 leaves spacing, letter case or a malformed line
open, log entry 10 says what is done. -/

namespace Sys2Proof.Machine

/-! ### Lines -/

/-- A line that is one command (30_encoding.md R63). Numbers are as written, in or out of range. -/
inductive CoreLine where
  /-- `SEED` with the listed words. -/
  | seed (ws : List Nat)
  | nextword
  /-- `GETBITS n`, or `GETBITS.H n` with `h`. -/
  | getbits (h : Bool) (n : Nat)
  /-- `RANDINT min, max, step`, or `RANDINT.H` with `h`. -/
  | randint (h : Bool) (min max step : Int)
  | status
  /-- `.cmd 0xXXXXXXXX`, a raw command word, legal or not (DESIGN CHOICE: log entry 10). -/
  | cmd (w : Nat)
  deriving DecidableEq, Repr

/-- A line: a command, or a pseudo-instruction of 30_encoding.md R66. -/
inductive AsmLine where
  | core (l : CoreLine)
  /-- `RANDINT` with no operand. -/
  | randintDefault (h : Bool)
  /-- `RANDINT max`. -/
  | randintMax (h : Bool) (max : Int)
  /-- `RANDINT min, max`. -/
  | randintMinMax (h : Bool) (min max : Int)
  /-- `GETRANDBITS n`. -/
  | getrandbits (h : Bool) (n : Nat)
  deriving DecidableEq, Repr

/-- Why an assembler refuses a line (30_encoding.md R63). -/
inductive AsmError where
  /-- A value outside its range. -/
  | valueOutOfRange
  /-- `L` above 63. -/
  | seedTooLong
  /-- `n` above 63. -/
  | widthTooLarge
  /-- An unknown mnemonic. -/
  | unknownMnemonic
  /-- Operands that are not of the mnemonic's form (log entry 10). -/
  | malformed
  deriving DecidableEq, Repr

/-- The expansion of a line to its one command (30_encoding.md R66). -/
def AsmLine.expand : AsmLine → CoreLine
  | .core l => l
  | .randintDefault h => .randint h 0 4294967296 1
  | .randintMax h max => .randint h 0 max 1
  | .randintMinMax h min max => .randint h min max 1
  | .getrandbits h n => .getbits h n

/-- An operand of `RANDINT` is in `-2^63 .. 2^63-1` (30_encoding.md R58, R63). -/
def inS64 (i : Int) : Bool := decide (-2 ^ 63 ≤ i ∧ i < 2 ^ 63)

/-- A word is in `0 .. 0xFFFFFFFF` (30_encoding.md R63). -/
def inWord (n : Nat) : Bool := decide (n < 2 ^ 32)

/-- Assembly to encoding (30_encoding.md R64), refusing what R63 refuses. Unused operands are 0. R63 says of `.cmd` "for
illegal words" and lists no refusal of a legal one: any 32-bit word is assembled, with no operands, so `.cmd 0x00002001`
is a `SEED` with `L = 32` and an empty list (DESIGN CHOICE: log entry 10). -/
def CoreLine.assemble : CoreLine → Except AsmError Command
  | .seed ws =>
    if 63 < ws.length then .error .seedTooLong
    else if ws.all inWord then
      .ok { bareCommand (encode (.seed ws.length)) with seed := ws.map (BitVec.ofNat 32) }
    else .error .valueOutOfRange
  | .nextword => .ok (bareCommand (encode .nextword))
  | .getbits h n => if 63 < n then .error .widthTooLarge else .ok (bareCommand (encode (.getbits n h)))
  | .randint h min max step =>
    if inS64 min && inS64 max && inS64 step then
      .ok { bareCommand (encode (.randint h)) with a := u64 min, b := u64 max, c := u64 step }
    else .error .valueOutOfRange
  | .status => .ok (bareCommand (encode .status))
  | .cmd w => if inWord w then .ok (bareCommand (BitVec.ofNat 32 w)) else .error .valueOutOfRange

/-- Assembly of a line, pseudo-instructions expanded (30_encoding.md R64, R66). -/
def AsmLine.assemble (l : AsmLine) : Except AsmError Command := l.expand.assemble

/-- Disassembly of a transaction: the row `decode` selects with its operands, or `.cmd` for `ILLEGAL` (30_encoding.md
R65). A `SEED` is spelled with its word list, as R63 spells it (log entry 10). -/
def Command.disassemble (c : Command) : CoreLine :=
  match decode c.word with
  | .legal (.seed _) => .seed (c.seed.map BitVec.toNat)
  | .legal .nextword => .nextword
  | .legal (.getbits n h) => .getbits h n
  | .legal (.randint h) => .randint h c.min c.max c.step
  | .legal .status => .status
  | .illegal _ => .cmd c.word.toNat

/-! ### Printing -/

/-- The digit character of a number below 16, upper case. -/
def digitChar (d : Nat) : Char := if d < 10 then Char.ofNat (48 + d) else Char.ofNat (55 + d)

/-- Decimal digits with `fuel` many places at most. -/
def decimalDigits : Nat → Nat → List Char
  | 0, _ => []
  | fuel + 1, n => if n < 10 then [digitChar n] else decimalDigits fuel (n / 10) ++ [digitChar (n % 10)]

/-- A number in decimal. -/
def printNat (n : Nat) : List Char := decimalDigits (n + 1) n

/-- An integer in decimal, negative ones with a minus sign (30_encoding.md R63). -/
def printInt (i : Int) : List Char := if i < 0 then '-' :: printNat i.natAbs else printNat i.natAbs

/-- The last `places` hexadecimal digits of a number, upper case. -/
def hexDigits : Nat → Nat → List Char
  | 0, _ => []
  | places + 1, n => hexDigits places (n / 16) ++ [digitChar (n % 16)]

/-- `0xXXXXXXXX` (30_encoding.md R63, R65). -/
def printHexWord (n : Nat) : List Char := '0' :: 'x' :: hexDigits 8 n

/-- Operands with a comma and a space between them. -/
def joinOperands : List (List Char) → List Char
  | [] => []
  | [x] => x
  | x :: y :: rest => x ++ ',' :: ' ' :: joinOperands (y :: rest)

/-- The braces of a seed list. -/
def openBrace : Char := Char.ofNat 123
def closeBrace : Char := Char.ofNat 125

/-- The `.H` suffix (30_encoding.md R63). -/
def suffixH (h : Bool) : List Char := if h then ['.', 'H'] else []

def nameSeed : List Char := ['S', 'E', 'E', 'D']
def nameNextword : List Char := ['N', 'E', 'X', 'T', 'W', 'O', 'R', 'D']
def nameGetbits : List Char := ['G', 'E', 'T', 'B', 'I', 'T', 'S']
def nameRandint : List Char := ['R', 'A', 'N', 'D', 'I', 'N', 'T']
def nameStatus : List Char := ['S', 'T', 'A', 'T', 'U', 'S']
def nameCmd : List Char := ['.', 'c', 'm', 'd']
def nameGetrandbits : List Char := ['G', 'E', 'T', 'R', 'A', 'N', 'D', 'B', 'I', 'T', 'S']

/-- The canonical spelling of a line: decimal numbers and no pseudo-instructions (30_encoding.md R63, R65). -/
def CoreLine.print : CoreLine → List Char
  | .seed ws => nameSeed ++ ' ' :: openBrace :: joinOperands (ws.map printNat) ++ [closeBrace]
  | .nextword => nameNextword
  | .getbits h n => nameGetbits ++ suffixH h ++ ' ' :: printNat n
  | .randint h min max step =>
    nameRandint ++ suffixH h ++ ' ' :: joinOperands [printInt min, printInt max, printInt step]
  | .status => nameStatus
  | .cmd w => nameCmd ++ ' ' :: printHexWord w

/-! ### Reading -/

def isBlank (c : Char) : Bool := c == ' ' || c == '\t' || c == '\r'

/-- Text without the blanks at its two ends. -/
def trimBlanks (cs : List Char) : List Char := ((cs.dropWhile isBlank).reverse.dropWhile isBlank).reverse

/-- Text up to a comment: `;` starts one (30_encoding.md R63). -/
def stripComment (cs : List Char) : List Char := cs.takeWhile (fun c => c != ';')

/-- Text cut at its commas. -/
def splitCommas : List Char → List (List Char)
  | [] => [[]]
  | c :: cs =>
    match splitCommas cs with
    | [] => [[c]]
    | g :: gs => if c == ',' then [] :: g :: gs else (c :: g) :: gs

/-- The value of a digit below `base`, either letter case. -/
def digitValue (base : Nat) (c : Char) : Option Nat :=
  let n := c.toNat
  let v := if 48 ≤ n ∧ n ≤ 57 then n - 48 else if 65 ≤ n ∧ n ≤ 70 then n - 55
    else if 97 ≤ n ∧ n ≤ 102 then n - 87 else base
  if v < base then some v else none

/-- The value of a run of digits, most significant first, after `acc`. -/
def readDigits (base : Nat) : Nat → List Char → Option Nat
  | acc, [] => some acc
  | acc, c :: cs => (digitValue base c).bind (fun v => readDigits base (base * acc + v) cs)

/-- A number: decimal, or hexadecimal after `0x` (30_encoding.md R63). -/
def readNat (cs : List Char) : Option Nat :=
  match cs with
  | [] => none
  | '0' :: 'x' :: [] => none
  | '0' :: 'x' :: ds => readDigits 16 0 ds
  | ds => readDigits 10 0 ds

/-- An integer: "decimal may be negative" (30_encoding.md R63). -/
def readInt (cs : List Char) : Option Int :=
  match cs with
  | '-' :: ds => if ds.isEmpty then none else (readDigits 10 0 ds).map (fun n => -(n : Int))
  | ds => (readNat ds).map (fun n => (n : Int))

/-- The operand texts of a line: none at all for an empty text. -/
def operandTexts (cs : List Char) : List (List Char) :=
  if trimBlanks cs = [] then [] else (splitCommas cs).map trimBlanks

/-- The text between the braces of a seed list. -/
def insideBraces (cs : List Char) : Option (List Char) :=
  match cs with
  | [] => none
  | c :: rest =>
    if c == openBrace && rest.getLast? == some closeBrace then some rest.dropLast else none

/-- The operands of `RANDINT`: three, or the shorter forms of 30_encoding.md R66. -/
def readRandint (h : Bool) (ops : List (List Char)) : Except AsmError AsmLine :=
  match ops.mapM readInt with
  | some [] => .ok (.randintDefault h)
  | some [max] => .ok (.randintMax h max)
  | some [min, max] => .ok (.randintMinMax h min max)
  | some [min, max, step] => .ok (.core (.randint h min max step))
  | _ => .error .malformed

/-- The operand of `GETBITS` or `GETRANDBITS`. -/
def readWidth (make : Nat → AsmLine) (ops : List (List Char)) : Except AsmError AsmLine :=
  match ops.mapM readNat with
  | some [n] => .ok (make n)
  | _ => .error .malformed

/-- A mnemonic that takes no operand. -/
def readBare (l : CoreLine) (ops : List (List Char)) : Except AsmError AsmLine :=
  if ops = [] then .ok (.core l) else .error .malformed

/-- A line from its mnemonic and the text after it (30_encoding.md R63, R66). -/
def parseNamed (name rest : List Char) : Except AsmError AsmLine :=
  let ops := operandTexts rest
  if name = nameSeed then
    match (insideBraces rest).bind (fun inner => (operandTexts inner).mapM readNat) with
    | some ws => .ok (.core (.seed ws))
    | none => .error .malformed
  else if name = nameNextword then readBare .nextword ops
  else if name = nameStatus then readBare .status ops
  else if name = nameGetbits then readWidth (fun n => .core (.getbits false n)) ops
  else if name = nameGetbits ++ suffixH true then readWidth (fun n => .core (.getbits true n)) ops
  else if name = nameGetrandbits then readWidth (.getrandbits false) ops
  else if name = nameGetrandbits ++ suffixH true then readWidth (.getrandbits true) ops
  else if name = nameRandint then readRandint false ops
  else if name = nameRandint ++ suffixH true then readRandint true ops
  else if name = nameCmd then readWidth (fun w => .core (.cmd w)) ops
  else .error .unknownMnemonic

/-- One line of text: nothing, or a line (30_encoding.md R63, R66). The mnemonic is the text before the first blank. -/
def parseLine (text : List Char) : Except AsmError (Option AsmLine) :=
  let cs := trimBlanks (stripComment text)
  if cs = [] then .ok none
  else (parseNamed (cs.takeWhile (fun c => !isBlank c)) (trimBlanks (cs.dropWhile (fun c => !isBlank c)))).map some

/-- One line of text to its transaction, or the reason it is refused. -/
def assembleText (text : List Char) : Except AsmError (Option Command) :=
  match parseLine text with
  | .error e => .error e
  | .ok none => .ok none
  | .ok (some l) => l.assemble.map some

/-- A text, one command per line; a refusal names the line, counted from `lineNo` (30_encoding.md R63). -/
def assembleLines : Nat → List (List Char) → Except (Nat × AsmError) (List Command)
  | _, [] => .ok []
  | lineNo, t :: ts =>
    match assembleText t with
    | .error e => .error (lineNo, e)
    | .ok none => assembleLines (lineNo + 1) ts
    | .ok (some c) => (assembleLines (lineNo + 1) ts).map (fun cs => c :: cs)

/-! ### The listing form -/

/-- A line of a program listing: the assembly text, the command word in hex, and the operands (30_encoding.md R67). -/
structure ListingLine where
  text : List Char
  word : List Char
  operands : List Int
  seed : List Word
  deriving DecidableEq, Repr

/-- The listing line of a transaction (30_encoding.md R67). -/
def Command.listing (c : Command) : ListingLine :=
  { text := c.disassemble.print
    word := printHexWord c.word.toNat
    operands := [c.min, c.max, c.step]
    seed := c.seed }

/-- A start or end state as a listing gives it: the flags, and the words and index when seeded (30_encoding.md R67). -/
structure ListedState where
  seeded : Bool
  fault : Code
  stream : Option (Vector Word 32 × Fin 32)
  deriving DecidableEq, Repr

/-- The listed form of an engine state (30_encoding.md R67). -/
def Engine.listed (e : Engine) : ListedState :=
  { seeded := e.seeded, fault := e.fault, stream := if e.seeded then some (e.S, e.IDX) else none }

end Sys2Proof.Machine
end

