-- ==== Sys2Proof/Safety.lean ====
section
/-! DEFINITION. What statements speak about: the legal states (10_state.md R20, R22), the legal responses
(60_exceptions.md R118), the host's duty (20_memory.md R39), the observation of a run (70_reset_and_hazards.md R152), and
when two machines look the same to the host (10_state.md R30, R33). -/

namespace Sys2Proof.Machine

/-! ### Legal states -/

/-- `FAULT` takes exactly the values of 10_state.md R22. -/
abbrev Engine.FaultLegal (e : Engine) : Prop := e.fault = 0x00 ∨ e.fault = 0x80 ∨ e.fault = 0x81

/-- `S` is not all zero. -/
abbrev Engine.Nonzero (e : Engine) : Prop := ∃ j : Fin 32, e.S[j] ≠ 0

/-- The nonzero invariant: while `SEEDED = 1`, `S` is not all zero (10_state.md R20). -/
abbrev Engine.NonzeroWhileSeeded (e : Engine) : Prop := e.seeded = true → e.Nonzero

/-- All the codes of the table of 60_exceptions.md R118. -/
def Status.codes : List Code :=
  [.ok, .illegalCommand, .notSeeded, .invalidSeed, .invalidBitWidth, .invalidRange, .faultSeedLength,
    .faultPrecisionCeiling, .faulted].map Status.code

/-- A response the table allows: "No other value is ever returned" (60_exceptions.md R118), and "On any nonzero status
the result is 0" (20_memory.md R37). -/
abbrev Response.Legal (r : Response) : Prop := r.status ∈ Status.codes ∧ (r.status ≠ 0x00 → r.result = 0)

/-- The invariant every step keeps: `FAULT` has a legal value, a seeded engine is not all zero, and every response given
is one of the table's. -/
structure State.Inv (s : State) : Prop where
  faultLegal : s.engine.FaultLegal
  nonzero : s.engine.NonzeroWhileSeeded
  responses : ∀ r ∈ s.responses, r.Legal

/-- "A run with `FAULT ≠ 0x00` has gone wrong" (60_exceptions.md R121): a safe state is an unfaulted one. -/
abbrev State.Safe (s : State) : Prop := s.engine.fault = 0x00

/-! ### What a command leaves -/

/-- The state after a command that was answered `(status, result)` and left the engine as `e`: the command is gone from
the port, its one response stands last, and nothing else is left of it (20_memory.md R37, R43; 10_state.md R25). -/
def State.answered (s : State) (e : Engine) (status : Code) (result : Dword) : State :=
  { engine := e
    inputs := s.inputsAfterCommand
    responses := s.responses ++ [{ status := status, result := result }] }

/-! ### The host's duty -/

/-- The host delivers, with a `SEED` word, a list of exactly `L` words (20_memory.md R39, R44). -/
def Command.dutyKept (c : Command) : Bool :=
  match decode c.word with
  | .legal (.seed l) => c.seed.length == l
  | _ => true

/-! ### What the host sees -/

/-- The observation of a run: the responses, and the final `SEEDED` and `FAULT` (70_reset_and_hazards.md R152). -/
structure Observation where
  responses : List Response
  seeded : Bool
  fault : Code
  deriving DecidableEq, Repr

/-- What a run that ended in `s` shows (70_reset_and_hazards.md R152). -/
def State.observation (s : State) : Observation :=
  { responses := s.responses, seeded := s.engine.seeded, fault := s.engine.fault }

/-- Two engines that no command sequence can tell apart: the flags agree, and the hidden `S` and `IDX` agree when they
are seeded (10_state.md R30, R33). -/
structure Engine.Alike (e e' : Engine) : Prop where
  seeded : e.seeded = e'.seeded
  fault : e.fault = e'.fault
  words : e.seeded = true → e.S = e'.S
  index : e.seeded = true → e.IDX = e'.IDX

/-- Two machines that look the same to the host and have the same moves before them. -/
structure State.Alike (s s' : State) : Prop where
  engine : s.engine.Alike s'.engine
  inputs : s.inputs = s'.inputs
  responses : s.responses = s'.responses

/-- Two outcomes the host cannot tell apart: next states alike, or the same stop. -/
def Result.Alike (o o' : Result) : Prop :=
  match o, o' with
  | .next s, .next s' => s.Alike s'
  | .refused r, .refused r' => r = r'
  | _, _ => False

end Sys2Proof.Machine
end

