-- ==== Sys2Proof/Certificates/Slice0/Obligations.lean ====
section
/-! DEFINITION. The statements for the provers, by the rules R<n> of spec/. Responses are written with the codes of
60_exceptions.md R118 as numbers. A statement about `exec i s` speaks of every state; the operands are those of the
transaction the port presents, `s.presented`. -/

open Sys2Proof Sys2Proof.Machine

/-! ### Encoding (30_encoding.md) -/

/-- R55, R64: decoding the word of a well-formed instruction gives that instruction back, with every field at every value
field `N` and bit `H` can hold. -/
def Obligations.DecodeOfEncode : Prop :=
  ∀ i : Instr, i.wf = true → decode (encode i) = .legal i

/-- R55, R64: a word that decodes to an instruction is that instruction's one word, and the instruction is well formed:
no bit of a legal word is dropped. -/
def Obligations.EncodeOfDecode : Prop :=
  ∀ (w : Word) (i : Instr), decode w = .legal i → i.wf = true ∧ encode i = w

/-- R54: the table's five rows; the words each selects, by the fields the rule requires; and no word selects two. -/
def Obligations.TableRowsSelectTheirWords : Prop :=
  opcodeTable = [⟨.seed, 0x00000001, 0xFFFFC0FF⟩, ⟨.nextword, 0x00000002, 0xFFFFFFFF⟩, ⟨.getbits, 0x00000003, 0xFFFF40FF⟩,
    ⟨.randint, 0x00000004, 0xFFFF7FFF⟩, ⟨.status, 0x00000005, 0xFFFFFFFF⟩] ∧
  (∀ (r : Row) (w : Word), r.selects w = true ↔ w &&& r.mask = r.pattern) ∧
  (∀ r ∈ opcodeTable, ∀ w : Word, r.selects w = true ↔
    fieldRSV0 w = false ∧ fieldRSV1 w = 0 ∧
    match r.mnemonic with
    | .seed => fieldOPC w = 0x01 ∧ fieldH w = false
    | .nextword => fieldOPC w = 0x02 ∧ fieldN w = 0 ∧ fieldH w = false
    | .getbits => fieldOPC w = 0x03
    | .randint => fieldOPC w = 0x04 ∧ fieldN w = 0
    | .status => fieldOPC w = 0x05 ∧ fieldN w = 0 ∧ fieldH w = false) ∧
  (∀ r ∈ opcodeTable, ∀ r' ∈ opcodeTable, ∀ w : Word, r.selects w = true → r'.selects w = true → r = r')

/-- R59: exactly the words of the rule's four points are illegal, the all-zero word among them; an unfaulted engine
answers one with `ILLEGAL_COMMAND` and changes no state. -/
def Obligations.IllegalWords : Prop :=
  (∀ w : Word, (∃ why, decode w = .illegal why) ↔
    (fieldOPC w = 0x00 ∨ 0x06 ≤ fieldOPC w) ∨
    (fieldRSV0 w = true ∨ fieldRSV1 w ≠ 0) ∨
    (fieldN w ≠ 0 ∧ (fieldOPC w = 0x02 ∨ fieldOPC w = 0x04 ∨ fieldOPC w = 0x05)) ∨
    (fieldH w = true ∧ (fieldOPC w = 0x01 ∨ fieldOPC w = 0x02 ∨ fieldOPC w = 0x05))) ∧
  (∃ why, decode 0x00000000 = .illegal why) ∧
  (∀ (s : State) (c : Command) (rest : List HostMove) (why : IllegalReason),
    s.inputs = .command c :: rest → s.engine.fault = 0x00 → decode c.word = .illegal why →
    step s = .next (s.answered s.engine 0x01 0))

/-- R61: the number of legal words, row by row and in all, and of illegal ones. -/
def Obligations.LegalWordCount : Prop :=
  {w : Word | ∃ l, decode w = .legal (.seed l)}.ncard = 64 ∧
  {w : Word | decode w = .legal .nextword}.ncard = 1 ∧
  {w : Word | ∃ n h, decode w = .legal (.getbits n h)}.ncard = 128 ∧
  {w : Word | ∃ h, decode w = .legal (.randint h)}.ncard = 2 ∧
  {w : Word | decode w = .legal .status}.ncard = 1 ∧
  {w : Word | ∃ i, decode w = .legal i}.ncard = 196 ∧
  {w : Word | ∃ why, decode w = .illegal why}.ncard = 2 ^ 32 - 196

/-- R68: the canonical command words: what each line assembles to, and that its word decodes to it. -/
def Obligations.CanonicalCommandWords : Prop :=
  ∀ p ∈ ([(.seed 32, 0x00002001), (.seed 31, 0x00001F01), (.nextword, 0x00000002), (.getbits 1 false, 0x00000103),
      (.getbits 32 false, 0x00002003), (.getbits 33 false, 0x00002103), (.getbits 53 false, 0x00003503),
      (.getbits 8 true, 0x00008803), (.getbits 0 false, 0x00000003), (.getbits 54 false, 0x00003603),
      (.randint false, 0x00000004), (.randint true, 0x00008004), (.status, 0x00000005)] : List (Instr × Word)),
    encode p.1 = p.2 ∧ decode p.2 = .legal p.1

/-! ### The port, the step and reset (20_memory.md, 70_reset_and_hazards.md) -/

/-- R36, R123: when the word of the command at the port decodes to an instruction, the step is that instruction's
`exec` at the same state. -/
def Obligations.StepRunsTheDecodedInstruction : Prop :=
  ∀ (s : State) (c : Command) (rest : List HostMove) (i : Instr),
    s.inputs = .command c :: rest → decode c.word = .legal i → step s = exec i s ∧ s.presented = c

/-- R139: reset, from any state, the faulted one included. Nothing is given back. -/
def Obligations.ResetMoveResetsTheEngine : Prop :=
  ∀ (s : State) (words : Vector Word 32) (rest : List HostMove), s.inputs = .reset words :: rest →
    step s = .next
      { engine := { S := words, IDX := 0, seeded := false, fault := 0x00 }, inputs := rest, responses := s.responses }

/-- R31, R28: the reset values, whatever `RESET_STATE` is, and the status word after reset; the empty host side is the
model's own choice (log entry 1). -/
def Obligations.ResetValues : Prop :=
  (∀ words : Vector Word 32,
    (State.powerUp words).engine = { S := words, IDX := 0, seeded := false, fault := 0x00 } ∧
    (State.powerUp words).inputs = [] ∧ (State.powerUp words).responses = [] ∧
    (State.powerUp words).engine.statusWord = 0x0000000000000000) ∧
  State.reset = State.powerUp Config.resetState

/-- R140 "It waits for commands", R15 "The engine takes no step of its own": a step with no host move changes nothing
(the model's reading, log entry 3). -/
def Obligations.EmptyPortWaits : Prop :=
  ∀ s : State, s.inputs = [] → step s = .next s

/-- R37: a command that is not refused gets exactly one response, which the table of R118 allows and whose result is 0
when its status is not; the earlier responses stand, and the command leaves the port. -/
def Obligations.EveryCommandGetsOneResponse : Prop :=
  ∀ (s s' : State) (c : Command) (rest : List HostMove), s.inputs = .command c :: rest → step s = .next s' →
    ∃ r : Response, s'.responses = s.responses ++ [r] ∧ s'.inputs = rest ∧
      r.status ∈ ([0x00, 0x01, 0x02, 0x03, 0x04, 0x05, 0x80, 0x81, 0xFF] : List Code) ∧ (r.status ≠ 0x00 → r.result = 0)

/-- R39, R137: no step stops with a fault, and a step is refused exactly when an unfaulted engine is given a `SEED` with
`L = 32` whose list does not hold 32 words (the place of that refusal after the faulted check: log entry 5). -/
def Obligations.StepStopsOnlyOnABrokenSeedDuty : Prop :=
  ∀ s : State, (∀ f : Fault, step s ≠ .fault f) ∧
    ∀ r : Refusal, step s = .refused r ↔
      r = .seedListLength ∧ s.engine.fault = 0x00 ∧
        ∃ (c : Command) (rest : List HostMove), s.inputs = .command c :: rest ∧ c.word = 0x00002001 ∧ c.seed.length ≠ 32

/-- R14, R150: with a host that keeps its duty (R39, R44), every step answers a next state. -/
def Obligations.StepGoesOnWhenTheDutyIsKept : Prop :=
  ∀ s : State, (∀ (c : Command) (rest : List HostMove), s.inputs = .command c :: rest → c.dutyKept = true) →
    ∃ s' : State, step s = .next s'

/-! ### The generator (40_generator.md) -/

/-- R72: the generator step, every read before either write. -/
def Obligations.GeneratorStepFollowsTheRecurrence : Prop :=
  ∀ e : Engine,
    let i := e.IDX
    let j := i + 31
    let z0 := e.S[j]
    let z1 := e.S[i] ^^^ (e.S[i + 3] ^^^ (e.S[i + 3] >>> 8))
    let z2 := (e.S[i + 24] ^^^ (e.S[i + 24] <<< 19)) ^^^ (e.S[i + 10] ^^^ (e.S[i + 10] <<< 14))
    let e' := e.nextWord.2
    e'.S[i] = z1 ^^^ z2 ∧
    e'.S[j] = (z0 ^^^ (z0 <<< 11)) ^^^ (z1 ^^^ (z1 <<< 7)) ^^^ (z2 ^^^ (z2 <<< 13)) ∧
    e'.IDX = j ∧ e.nextWord.1 = e'.S[j]

/-- R73: one step writes the words at the old and the new index, two different ones, and no other; and it leaves
`SEEDED` and `FAULT` alone. The returned word is the one stored at the new index. -/
def Obligations.GeneratorStepWritesTwoWords : Prop :=
  ∀ e : Engine, e.IDX ≠ e.IDX + 31 ∧
    (∀ k : Fin 32, k ≠ e.IDX → k ≠ e.IDX + 31 → e.nextWord.2.S[k] = e.S[k]) ∧
    e.nextWord.2.seeded = e.seeded ∧ e.nextWord.2.fault = e.fault ∧
    e.nextWord.1 = e.nextWord.2.S[e.nextWord.2.IDX]

/-- R74: after `m` steps the index has moved down by `m`, circularly; after 32 it is back. -/
def Obligations.IndexMovesDownCircularly : Prop :=
  ∀ (e : Engine) (m : Nat),
    (Engine.advance^[m] e).IDX.val = (e.IDX.val + 31 * m) % 32 ∧ (Engine.advance^[32] e).IDX = e.IDX

/-- R76: "If `S` is not all zero before a step, it is not all zero after it." -/
def Obligations.NonzeroStateIsPreserved : Prop :=
  ∀ e : Engine, (∃ j : Fin 32, e.S[j] ≠ 0) → ∃ j : Fin 32, e.nextWord.2.S[j] ≠ 0

/-- R76, R20: the generator's transition is invertible: every engine state has exactly one predecessor. -/
def Obligations.GeneratorTransitionIsInvertible : Prop :=
  Function.Bijective Engine.advance

/-- R76, R20: the transition is linear: at one index, the exclusive or of two state vectors steps to the exclusive or of
what they step to. -/
def Obligations.GeneratorTransitionIsLinear : Prop :=
  ∀ e₁ e₂ e : Engine, e₁.IDX = e.IDX → e₂.IDX = e.IDX → (∀ k : Fin 32, e.S[k] = e₁.S[k] ^^^ e₂.S[k]) →
    (∀ k : Fin 32, e.advance.S[k] = e₁.advance.S[k] ^^^ e₂.advance.S[k]) ∧ e.nextWord.1 = e₁.nextWord.1 ^^^ e₂.nextWord.1

/-- R82: `NEXTWORD` on an unfaulted, seeded engine returns the next word with its upper half 0 and leaves the engine one
generator step on; unseeded or faulted it is refused and changes no state. -/
def Obligations.NextwordReturnsTheNextWord : Prop :=
  ∀ s : State,
    (s.engine.fault = 0x00 → s.engine.seeded = true →
      exec .nextword s = .next (s.answered s.engine.nextWord.2 0x00 (BitVec.ofNat 64 s.engine.nextWord.1.toNat))) ∧
    (s.engine.fault = 0x00 → s.engine.seeded = false → exec .nextword s = .next (s.answered s.engine 0x02 0)) ∧
    (s.engine.fault ≠ 0x00 → exec .nextword s = .next (s.answered s.engine 0xFF 0))

/-- R77, R78: an accepted `SEED` puts seed word `j` in `S[j]`, sets `IDX` to 0 and `SEEDED` to 1, leaves `FAULT` alone
and responds `(0x00, 0)`, whether the engine was seeded or not. -/
def Obligations.SeedLoadsTheWords : Prop :=
  ∀ s : State, s.engine.fault = 0x00 → s.presented.seed.length = 32 → (∃ w ∈ s.presented.seed, w ≠ 0) →
    ∃ e : Engine, exec (.seed 32) s = .next (s.answered e 0x00 0) ∧
      (∀ j : Fin 32, s.presented.seed[j.val]? = some e.S[j]) ∧ e.IDX = 0 ∧ e.seeded = true ∧ e.fault = s.engine.fault

/-- R79: a seed of 32 zero words is rejected with `INVALID_SEED` and changes no state. -/
def Obligations.SeedOfZeroWordsIsRejected : Prop :=
  ∀ s : State, s.engine.fault = 0x00 → s.presented.seed = List.replicate 32 0 →
    exec (.seed 32) s = .next (s.answered s.engine 0x03 0)

/-- R80: `L ≠ 32` is a fatal fault: `FAULT` becomes `0x80`, nothing else changes, and the response is `(0x80, 0)`,
whatever the list holds. -/
def Obligations.SeedLengthFault : Prop :=
  ∀ (s : State) (l : Nat), s.engine.fault = 0x00 → l ≠ 32 →
    exec (.seed l) s = .next (s.answered { s.engine with fault := 0x80 } 0x80 0)

/-- R39: `L = 32` with a list of another length is refused by an unfaulted engine (the faulted check first: log entry
5). -/
def Obligations.SeedListOfAnotherLengthIsRefused : Prop :=
  ∀ s : State, s.engine.fault = 0x00 → s.presented.seed.length ≠ 32 → exec (.seed 32) s = .refused .seedListLength

/-! ### The bit extractor (41_bit_extractor.md) -/

/-- R88, R90: a STANDARD `GETBITS` completes: it draws one word and returns its low `n` bits; for `n = 32` the word
itself. -/
def Obligations.GetbitsStandardKeepsTheLowBits : Prop :=
  ∀ (s : State) (n : Nat), s.engine.fault = 0x00 → s.engine.seeded = true → 1 ≤ n → n ≤ 32 →
    let w := s.engine.nextWord.1
    ∃ r : Nat, exec (.getbits n false) s = .next (s.answered s.engine.nextWord.2 0x00 (BitVec.ofNat 64 r)) ∧
      r = w.toNat % 2 ^ n ∧ (n = 32 → r = w.toNat)

/-- R89, R87: a HIGH `GETBITS`, by `H` or by `n > 32`, completes: it draws two words and returns the low `n` bits of
`w1 * 2^32 + w2`: for `n ≤ 32` those of `w2`, for larger `n` all of `w2` below the low `n - 32` bits of `w1`. -/
def Obligations.GetbitsHighJoinsTwoWords : Prop :=
  ∀ (s : State) (n : Nat) (h : Bool), s.engine.fault = 0x00 → s.engine.seeded = true → 1 ≤ n → n ≤ 53 →
    (h = true ∨ 32 < n) →
    let w1 := s.engine.nextWord.1
    let w2 := s.engine.nextWord.2.nextWord.1
    ∃ r : Nat, exec (.getbits n h) s =
        .next (s.answered s.engine.nextWord.2.nextWord.2 0x00 (BitVec.ofNat 64 r)) ∧
      r = (w1.toNat * 2 ^ 32 + w2.toNat) % 2 ^ n ∧
      (n ≤ 32 → r = w2.toNat % 2 ^ n) ∧
      (33 ≤ n → r = w1.toNat % 2 ^ (n - 32) * 2 ^ 32 + w2.toNat)

/-- R86: a width outside `1..53` raises `INVALID_BIT_WIDTH`; no word is drawn and no state changes. -/
def Obligations.GetbitsRejectsTheWidth : Prop :=
  ∀ (s : State) (n : Nat) (h : Bool), s.engine.fault = 0x00 → s.engine.seeded = true → n < 1 ∨ 53 < n →
    exec (.getbits n h) s = .next (s.answered s.engine 0x04 0)

/-- R85: the result of a successful `GETBITS n` lies in `0 .. 2^n - 1`. -/
def Obligations.GetbitsResultHasWidthN : Prop :=
  ∀ (s t : State) (n : Nat) (h : Bool) (r : Response), exec (.getbits n h) s = .next t →
    t.responses = s.responses ++ [r] → r.status = 0x00 → 1 ≤ n ∧ n ≤ 53 ∧ r.result.toNat < 2 ^ n

/-! ### The ranged integer mapper (42_ranged_integer.md) -/

/-- R98, R99, R102, R103, R104: a `RANDINT` on a legal range completes: the draw is one whole word, or 53 bits of two
when `H = 1` or the span is above `2^32`; the result is `min + step * (r mod ceil(span / step))`. -/
def Obligations.RandintReducesTheDraw : Prop :=
  ∀ (s : State) (h : Bool),
    let min := s.presented.a.toInt
    let max := s.presented.b.toInt
    let step := s.presented.c.toInt
    let span := max - min
    let k : Int := ⌈(span : ℚ) / (step : ℚ)⌉
    let w1 := s.engine.nextWord.1
    let w2 := s.engine.nextWord.2.nextWord.1
    s.engine.fault = 0x00 → s.engine.seeded = true → min < max → 1 ≤ step → span ≤ 2 ^ 53 →
    (h = false ∧ span ≤ 2 ^ 32 →
      exec (.randint h) s = .next (s.answered s.engine.nextWord.2 0x00
        (BitVec.ofInt 64 (min + step * ((w1.toNat : Int) % k))))) ∧
    (h = true ∨ 2 ^ 32 < span →
      exec (.randint h) s = .next (s.answered s.engine.nextWord.2.nextWord.2 0x00
        (BitVec.ofInt 64 (min + step * ((((w1.toNat * 2 ^ 32 + w2.toNat) % 2 ^ 53 : Nat) : Int) % k)))))

/-- R96, R105, R106: the result of a successful `RANDINT`, read as a signed integer, lies in `[min, max)` on the step
lattice. -/
def Obligations.RandintResultIsInRange : Prop :=
  ∀ (s t : State) (h : Bool) (r : Response), exec (.randint h) s = .next t → t.responses = s.responses ++ [r] →
    r.status = 0x00 →
    s.presented.a.toInt ≤ r.result.toInt ∧ r.result.toInt < s.presented.b.toInt ∧
      (r.result.toInt - s.presented.a.toInt) % s.presented.c.toInt = 0

/-- R100: `max ≤ min` or `step < 1` raises `INVALID_RANGE`; no word is drawn and no state changes. -/
def Obligations.RandintRejectsTheRange : Prop :=
  ∀ (s : State) (h : Bool), s.engine.fault = 0x00 → s.engine.seeded = true →
    s.presented.b.toInt ≤ s.presented.a.toInt ∨ s.presented.c.toInt < 1 →
    exec (.randint h) s = .next (s.answered s.engine 0x05 0)

/-- R101: a span above `2^53` faults: `FAULT` becomes `0x81`, nothing else changes, no word is drawn, and the response
is `(0x81, 0)`; a span of exactly `2^53` is allowed. -/
def Obligations.RandintCeilingFault : Prop :=
  ∀ (s : State) (h : Bool), s.engine.fault = 0x00 → s.engine.seeded = true → 1 ≤ s.presented.c.toInt →
    (2 ^ 53 < s.presented.b.toInt - s.presented.a.toInt →
      exec (.randint h) s = .next (s.answered { s.engine with fault := 0x81 } 0x81 0)) ∧
    (s.presented.b.toInt - s.presented.a.toInt = 2 ^ 53 →
      ∃ (e : Engine) (r : Dword), exec (.randint h) s = .next (s.answered e 0x00 r) ∧ e.fault = 0x00)

/-- R109: on a one-point range (`span = 1`, or `step ≥ span`) the result is `min` for every draw, and the engine has
still drawn one word or two. -/
def Obligations.RandintOnePointStillDraws : Prop :=
  ∀ (s : State) (h : Bool), s.engine.fault = 0x00 → s.engine.seeded = true →
    s.presented.a.toInt < s.presented.b.toInt → 1 ≤ s.presented.c.toInt →
    s.presented.b.toInt - s.presented.a.toInt ≤ 2 ^ 53 →
    s.presented.b.toInt - s.presented.a.toInt = 1 ∨ s.presented.b.toInt - s.presented.a.toInt ≤ s.presented.c.toInt →
    (h = false ∧ s.presented.b.toInt - s.presented.a.toInt ≤ 2 ^ 32 →
      exec (.randint h) s = .next (s.answered (Engine.advance^[1] s.engine) 0x00 s.presented.a)) ∧
    (h = true ∨ 2 ^ 32 < s.presented.b.toInt - s.presented.a.toInt →
      exec (.randint h) s = .next (s.answered (Engine.advance^[2] s.engine) 0x00 s.presented.a))

/-- R110: `RANDINT 0, 2^32, 1` has `span = k = 2^32`, and it and `NEXTWORD` are interchangeable in result and in state
effect, in every state. -/
def Obligations.RandintDefaultRangeIsNextword : Prop :=
  ∀ s : State, s.presented.a = 0 → s.presented.b = 4294967296 → s.presented.c = 1 →
    s.presented.span = 2 ^ 32 ∧ s.presented.stepCount = 2 ^ 32 ∧ exec (.randint false) s = exec .nextword s

/-- R107: the bias, exactly. Of the `2^B` draws, with `q = floor(2^B / k)` and `m = 2^B mod k`, grid point `x` is hit by
`q + 1` draws when `x < m` and by `q` when `x ≥ m`; and the weights of `randInt(1,7)`. -/
def Obligations.RandintBias : Prop :=
  (∀ (c : Command) (B x : Nat), B = 32 ∨ B = 53 → c.a.toInt < c.b.toInt → 1 ≤ c.c.toInt →
    c.b.toInt - c.a.toInt ≤ 2 ^ 53 → (x : Int) < c.stepCount →
    {r : Nat | r < 2 ^ B ∧ c.reduce (BitVec.ofNat 64 r) = c.a.toInt + c.c.toInt * x}.ncard =
      2 ^ B / c.stepCount.toNat + (if x < 2 ^ B % c.stepCount.toNat then 1 else 0)) ∧
  (∀ (c : Command) (v : Int), c.a = 1 → c.b = 7 → c.c = 1 → 1 ≤ v → v < 7 →
    {r : Nat | r < 2 ^ 32 ∧ c.reduce (BitVec.ofNat 64 r) = v}.ncard = if v ≤ 4 then 715827883 else 715827882)

/-! ### Status (43_status.md) -/

/-- R113, R28: `STATUS` completes in every state, the faulted one included, changes no state, and returns `SEEDED` in bit
0, `FAULTED` in bit 1, the `FAULT` register in bits 15:8 and 0 elsewhere. -/
def Obligations.StatusReadsTheFlags : Prop :=
  ∀ s : State, ∃ r : Dword, exec .status s = .next (s.answered s.engine 0x00 r) ∧
    r.getLsbD 0 = s.engine.seeded ∧ (r.getLsbD 1 = true ↔ s.engine.fault ≠ 0x00) ∧
    (∀ i, 2 ≤ i → i ≤ 7 → r.getLsbD i = false) ∧
    (∀ i, 8 ≤ i → i ≤ 15 → r.getLsbD i = s.engine.fault.getLsbD (i - 8)) ∧
    (∀ i, 16 ≤ i → r.getLsbD i = false)

/-- R115: any number of `STATUS` commands before other moves changes no later response and no later state: the run with
them answers what the run without them answers, with one status word for each inserted. -/
def Obligations.StatusChangesNothingLater : Prop :=
  ∀ (s : State) (cs : List Command) (rest : List HostMove) (k : Nat),
    s.inputs = cs.map .command ++ rest → (∀ c ∈ cs, c.word = 0x00000005) →
    (∀ u : State, Sys2Proof.core.run k { s with inputs := rest } = .next u →
      ∃ (u' : State) (later : List Response), Sys2Proof.core.run (k + cs.length) s = .next u' ∧
        u'.engine = u.engine ∧ u'.inputs = u.inputs ∧ u.responses = s.responses ++ later ∧
        u'.responses = s.responses ++ List.replicate cs.length ⟨0x00, s.engine.statusWord⟩ ++ later) ∧
    (∀ x : Refusal, Sys2Proof.core.run k { s with inputs := rest } = .refused x →
      Sys2Proof.core.run (k + cs.length) s = .refused x)

/-! ### Errors, faults and the check order (60_exceptions.md) -/

/-- R118, R33: before the first accepted `SEED`, an unfaulted engine answers every draw with `NOT_SEEDED`, whatever its
operands, and changes no state. -/
def Obligations.UnseededDrawsAreRejected : Prop :=
  ∀ (s : State) (n : Nat) (h : Bool), s.engine.fault = 0x00 → s.engine.seeded = false →
    exec .nextword s = .next (s.answered s.engine 0x02 0) ∧
    exec (.getbits n h) s = .next (s.answered s.engine 0x02 0) ∧
    exec (.randint h) s = .next (s.answered s.engine 0x02 0)

/-- R120: an error changes no state of the engine, and its response is `(code, 0)`. -/
def Obligations.ErrorsChangeNoState : Prop :=
  ∀ (s s' : State) (c : Command) (rest : List HostMove) (r : Response), s.inputs = .command c :: rest →
    step s = .next s' → s'.responses = s.responses ++ [r] →
    r.status ∈ ([0x01, 0x02, 0x03, 0x04, 0x05] : List Code) → s'.engine = s.engine ∧ r.result = 0

/-- R121, R125: a fault writes `FAULT` with its cause and nothing else, answers `(cause, 0)`, and happens only while the
engine is not faulted. -/
def Obligations.FaultsWriteOnlyTheCause : Prop :=
  ∀ (s s' : State) (c : Command) (rest : List HostMove) (r : Response), s.inputs = .command c :: rest →
    step s = .next s' → s'.responses = s.responses ++ [r] → r.status = 0x80 ∨ r.status = 0x81 →
    s'.engine = { s.engine with fault := r.status } ∧ s.engine.fault = 0x00 ∧ r.result = 0

/-- R122: while faulted, every command but `STATUS`, `SEED` and illegal words included, is answered `(0xFF, 0)` and
changes no state; `STATUS` still answers the status word; and only reset leaves the faulted state. -/
def Obligations.FaultedEngineAnswersOnlyStatus : Prop :=
  (∀ (s : State) (c : Command) (rest : List HostMove), s.inputs = .command c :: rest → s.engine.fault ≠ 0x00 →
    (c.word ≠ 0x00000005 → step s = .next (s.answered s.engine 0xFF 0)) ∧
    (c.word = 0x00000005 → step s = .next (s.answered s.engine 0x00 s.engine.statusWord))) ∧
  (∀ s s' : State, s.engine.fault ≠ 0x00 → step s = .next s' → s'.engine ≠ s.engine →
    ∃ (words : Vector Word 32) (rest : List HostMove), s.inputs = .reset words :: rest ∧ s'.engine = Engine.reset words)

/-- R123: the whole check order for one command, as one chain; the first check that applies decides. The refusal of a
list of another length (R39) stands after the length fault (log entry 5). -/
def Obligations.ChecksRunInOrder : Prop :=
  ∀ (s : State) (c : Command) (rest : List HostMove), s.inputs = .command c :: rest →
    step s =
      (if c.word = 0x00000005 then .next (s.answered s.engine 0x00 s.engine.statusWord)
       else if s.engine.fault ≠ 0x00 then .next (s.answered s.engine 0xFF 0)
       else match decode c.word with
        | .illegal _ => .next (s.answered s.engine 0x01 0)
        | .legal .status => .next s
        | .legal (.seed l) =>
          if l ≠ 32 then .next (s.answered { s.engine with fault := 0x80 } 0x80 0)
          else if c.seed.length ≠ 32 then .refused .seedListLength
          else if ∀ w ∈ c.seed, w = 0 then .next (s.answered s.engine 0x03 0)
          else .next (s.answered (s.engine.seedWith c.seed) 0x00 0)
        | .legal .nextword =>
          if s.engine.seeded = false then .next (s.answered s.engine 0x02 0)
          else .next (s.answered s.engine.advance 0x00 (s.engine.nextWord.1.setWidth 64))
        | .legal (.getbits n h) =>
          if s.engine.seeded = false then .next (s.answered s.engine 0x02 0)
          else if n < 1 ∨ 53 < n then .next (s.answered s.engine 0x04 0)
          else .next (s.answered (s.engine.getBits n (h || decide (32 < n))).2 0x00
            (s.engine.getBits n (h || decide (32 < n))).1)
        | .legal (.randint h) =>
          if s.engine.seeded = false then .next (s.answered s.engine 0x02 0)
          else if c.b.toInt ≤ c.a.toInt ∨ c.c.toInt < 1 then .next (s.answered s.engine 0x05 0)
          else if 2 ^ 53 < c.b.toInt - c.a.toInt then .next (s.answered { s.engine with fault := 0x81 } 0x81 0)
          else .next (s.answered
            (s.engine.getBits (if h || decide (2 ^ 32 < c.span) then 53 else 32) (h || decide (2 ^ 32 < c.span))).2 0x00
            (BitVec.ofInt 64 (c.reduce
              (s.engine.getBits (if h || decide (2 ^ 32 < c.span) then 53 else 32) (h || decide (2 ^ 32 < c.span))).1))))

/-! ### Frames and invariants (10_state.md) -/

/-- R29, R18, R19, R21, R22: the access table, as a frame. For each instruction that answers a next state: what of the
engine it may have changed, and that nothing else changed; the earlier responses stand. -/
def Obligations.AccessTable : Prop :=
  ∀ (s t : State) (i : Instr), exec i s = .next t →
    (∃ r : Response, t.responses = s.responses ++ [r]) ∧ t.inputs = s.inputsAfterCommand ∧
    match i with
    | .seed _ =>
      t.engine = s.engine ∨ t.engine = { s.engine with fault := 0x80 } ∨
      (t.engine.fault = s.engine.fault ∧ t.engine.seeded = true ∧ t.engine.IDX = 0 ∧
        t.engine.S.toList = s.presented.seed)
    | .nextword =>
      t.engine.fault = s.engine.fault ∧ t.engine.seeded = s.engine.seeded ∧
      (t.engine.IDX = s.engine.IDX ∨ t.engine.IDX = s.engine.IDX + 31) ∧
      (∀ k : Fin 32, k ≠ s.engine.IDX → k ≠ s.engine.IDX + 31 → t.engine.S[k] = s.engine.S[k])
    | .getbits _ _ =>
      t.engine.fault = s.engine.fault ∧ t.engine.seeded = s.engine.seeded ∧
      (t.engine.IDX = s.engine.IDX ∨ t.engine.IDX = s.engine.IDX + 31 ∨ t.engine.IDX = s.engine.IDX + 30) ∧
      (∀ k : Fin 32, k ≠ s.engine.IDX → k ≠ s.engine.IDX + 31 → k ≠ s.engine.IDX + 30 → t.engine.S[k] = s.engine.S[k])
    | .randint _ =>
      (t.engine.fault = s.engine.fault ∨ t.engine.fault = 0x81) ∧ t.engine.seeded = s.engine.seeded ∧
      (t.engine.IDX = s.engine.IDX ∨ t.engine.IDX = s.engine.IDX + 31 ∨ t.engine.IDX = s.engine.IDX + 30) ∧
      (∀ k : Fin 32, k ≠ s.engine.IDX → k ≠ s.engine.IDX + 31 → k ≠ s.engine.IDX + 30 → t.engine.S[k] = s.engine.S[k])
    | .status => t.engine = s.engine

/-- R21: only an accepted `SEED` sets `SEEDED`, and only reset clears it. -/
def Obligations.SeededIsSetBySeedAndClearedByReset : Prop :=
  ∀ s s' : State, step s = .next s' →
    (s.engine.seeded = false → s'.engine.seeded = true →
      ∃ (c : Command) (rest : List HostMove), s.inputs = .command c :: rest ∧ c.word = 0x00002001 ∧
        s.engine.fault = 0x00 ∧ c.seed.length = 32 ∧ ∃ w ∈ c.seed, w ≠ 0) ∧
    (s.engine.seeded = true → s'.engine.seeded = false →
      ∃ (words : Vector Word 32) (rest : List HostMove), s.inputs = .reset words :: rest)

/-- R150, R91, R108: a command draws no word, one or two: a step on a command leaves `S` and `IDX` as so many generator
steps leave them, or as an accepted `SEED` loads them. -/
def Obligations.CommandsDrawAtMostTwoWords : Prop :=
  ∀ (s s' : State) (c : Command) (rest : List HostMove), s.inputs = .command c :: rest → step s = .next s' →
    (∃ m ≤ 2, s'.engine.S = (Engine.advance^[m] s.engine).S ∧ s'.engine.IDX = (Engine.advance^[m] s.engine).IDX) ∨
    (c.word = 0x00002001 ∧ s'.engine.IDX = 0 ∧ c.seed = s'.engine.S.toList)

/-- R20, R22, R118: the invariant holds after every step from every state in which it holds: `FAULT` has one of its three
values, a seeded engine is not all zero, and every response given is one the table allows. -/
def Obligations.StepKeepsTheInvariant : Prop :=
  ∀ s s' : State, s.Inv → step s = .next s' → s'.Inv

/-- R20, R22: the invariant holds after reset, whatever `RESET_STATE` is. -/
def Obligations.ResetMeetsTheInvariant : Prop :=
  (∀ words : Vector Word 32, (State.powerUp words).Inv) ∧ State.reset.Inv

/-! ### What the host can learn -/

/-- R38: operands a command does not use have no effect: two transactions with the same word, which agree on `a`, `b`, `c`
if it is a `RANDINT` and on the list if it is a `SEED`, step to the same outcome. -/
def Obligations.UnusedOperandsHaveNoEffect : Prop :=
  ∀ (s : State) (c c' : Command) (rest : List HostMove), c.word = c'.word →
    ((∃ h, decode c.word = .legal (.randint h)) → c.a = c'.a ∧ c.b = c'.b ∧ c.c = c'.c) →
    ((∃ l, decode c.word = .legal (.seed l)) → c.seed = c'.seed) →
    step { s with inputs := .command c :: rest } = step { s with inputs := .command c' :: rest }

/-- R30, R33: two machines alike in what the host sees and, when seeded, in `S` and `IDX`, stay alike after a step. -/
def Obligations.AlikeStatesStayAlike : Prop :=
  ∀ s s' : State, s.Alike s' → Result.Alike (step s) (step s')

/-- R18, R33, R152: no run can tell two values of `RESET_STATE` apart: whatever the host sends after power-up, the runs
answer the same, and end with the same flags. -/
def Obligations.ResetWordsCannotBeObserved : Prop :=
  ∀ (words words' : Vector Word 32) (moves : List HostMove) (k : Nat),
    let o := Sys2Proof.core.run k { State.powerUp words with inputs := moves }
    let o' := Sys2Proof.core.run k { State.powerUp words' with inputs := moves }
    (∀ u : State, o = .next u → ∃ u' : State, o' = .next u' ∧ u.observation = u'.observation) ∧
    (∀ r : Refusal, o = .refused r → o' = .refused r)

/-- R81, R84: an accepted `SEED` discards the old stream: from any two unfaulted machines, seeded or not, the same `SEED`
followed by the same moves gives the same responses and ends in the same engine state. -/
def Obligations.ReseedRestartsTheStream : Prop :=
  ∀ (s s' : State) (c : Command) (rest : List HostMove) (k : Nat), s.engine.fault = 0x00 → s'.engine.fault = 0x00 →
    s.inputs = .command c :: rest → s'.inputs = .command c :: rest → s.responses = s'.responses →
    c.word = 0x00002001 → c.seed.length = 32 → (∃ w ∈ c.seed, w ≠ 0) →
    Sys2Proof.core.run (k + 1) s = Sys2Proof.core.run (k + 1) s'

/-! ### The assembler (30_encoding.md R63 to R66) -/

/-- R65: disassembling what a line assembles to gives the line back in canonical spelling, its pseudo-instruction
expanded; a raw `.cmd` line, when its word is illegal (that one with a legal word is assembled at all is the model's
choice, log entry 10). -/
def Obligations.DisassembleUndoesAssemble : Prop :=
  ∀ (l : AsmLine) (c : Command), l.assemble = .ok c →
    (∀ w, l = .core (.cmd w) → ∃ why, decode c.word = .illegal why) → c.disassemble = l.expand

/-- R63, R65: the text a line prints as is read back as that line: decimal numbers, and `.cmd` with eight hexadecimal
digits (spacing as the model prints it, log entry 10). -/
def Obligations.ParseOfPrint : Prop :=
  ∀ l : CoreLine, (∀ w, l = .cmd w → w < 2 ^ 32) → parseLine l.print = .ok (some (.core l))

/-- R63, R64, R44: a line of a command that an assembler does not refuse gives a transaction that keeps the host's duty,
with a legal word. A raw `.cmd` line carries any word and no list, so it may break the duty (log entry 10). -/
def Obligations.AssembledLinesKeepTheDuty : Prop :=
  ∀ (l : AsmLine) (c : Command), l.assemble = .ok c → (∀ w, l ≠ .core (.cmd w)) →
    c.dutyKept = true ∧ ∃ i, decode c.word = .legal i ∧ i.wf = true

/-- R66: each pseudo-instruction expands to exactly the command of the rule. -/
def Obligations.PseudoInstructionsExpand : Prop :=
  ∀ (h : Bool) (min max : Int) (n : Nat),
    (AsmLine.randintDefault h).expand = .randint h 0 4294967296 1 ∧
    (AsmLine.randintMax h max).expand = .randint h 0 max 1 ∧
    (AsmLine.randintMinMax h min max).expand = .randint h min max 1 ∧
    (AsmLine.getrandbits h n).expand = .getbits h n
end

