-- ==== Sys2Proof/Laws/Assembler.lean ====
section
/-! SUPPORT. Numbers and operand lists read back as they are printed (30_encoding.md R63, R65). -/

namespace Sys2Proof.Machine

/-! ### Plain text: what a printed operand is made of -/

/-- A character that is no blank, no comma, no comment start, and no brace. -/
def isPlain (c : Char) : Bool := !isBlank c && c != ',' && c != ';' && c != openBrace && c != closeBrace

theorem readDigits_append (base acc : Nat) (xs ys : List Char) :
    readDigits base acc (xs ++ ys) = (readDigits base acc xs).bind (fun a => readDigits base a ys) := by
  induction xs generalizing acc with
  | nil => rfl
  | cons c cs ih =>
    simp only [List.cons_append, readDigits]
    cases digitValue base c with
    | none => rfl
    | some v => simpa using ih _

theorem digitValue_decimal : ∀ d : Fin 10, digitValue 10 (digitChar d.val) = some d.val := by decide

theorem digitValue_hex : ∀ d : Fin 16, digitValue 16 (digitChar d.val) = some d.val := by decide

theorem digitChar_plain : ∀ d : Fin 16, isPlain (digitChar d.val) = true ∧ digitChar d.val ≠ '-' ∧ digitChar d.val ≠ 'x' := by
  decide

/-- Decimal digits read back as the number. -/
theorem readDigits_decimalDigits (fuel n : Nat) (h : n < fuel) : readDigits 10 0 (decimalDigits fuel n) = some n := by
  induction fuel generalizing n with
  | zero => omega
  | succ fuel ih =>
    unfold decimalDigits
    split
    · rename_i hn
      simp only [readDigits, digitValue_decimal ⟨n, hn⟩]
      simp
    · rw [readDigits_append, ih (n / 10) (by omega)]
      simp only [readDigits, Option.bind_some, digitValue_decimal ⟨n % 10, by omega⟩]
      simp; omega

/-- The last `places` hexadecimal digits read back as the number modulo `16 ^ places`. -/
theorem readDigits_hexDigits (places n : Nat) : readDigits 16 0 (hexDigits places n) = some (n % 16 ^ places) := by
  induction places generalizing n with
  | zero => simp [hexDigits, readDigits, Nat.mod_one]
  | succ places ih =>
    rw [hexDigits, readDigits_append, ih (n / 16)]
    simp only [readDigits, Option.bind_some, digitValue_hex ⟨n % 16, by omega⟩]
    rw [Nat.pow_succ', Nat.mod_mul]
    simp; omega

theorem decimalDigits_plain (fuel n : Nat) :
    ∀ c ∈ decimalDigits fuel n, isPlain c = true ∧ c ≠ '-' ∧ c ≠ 'x' := by
  induction fuel generalizing n with
  | zero => simp [decimalDigits]
  | succ fuel ih =>
    unfold decimalDigits
    split
    · rename_i hn
      intro c hc
      rw [List.mem_singleton.mp hc]; exact digitChar_plain ⟨n, by omega⟩
    · intro c hc
      rcases List.mem_append.mp hc with hc | hc
      · exact ih _ c hc
      · rw [List.mem_singleton.mp hc]; exact digitChar_plain ⟨n % 10, by omega⟩

theorem hexDigits_plain (places n : Nat) : ∀ c ∈ hexDigits places n, isPlain c = true := by
  induction places generalizing n with
  | zero => simp [hexDigits]
  | succ places ih =>
    intro c hc
    rcases List.mem_append.mp (show c ∈ hexDigits places (n / 16) ++ [digitChar (n % 16)] from hc) with hc | hc
    · exact ih _ c hc
    · rw [List.mem_singleton.mp hc]; exact (digitChar_plain ⟨n % 16, by omega⟩).1

theorem printNat_ne_nil (n : Nat) : printNat n ≠ [] := by
  unfold printNat decimalDigits
  split <;> simp

theorem printNat_plain (n : Nat) : ∀ c ∈ printNat n, isPlain c = true := fun c hc => (decimalDigits_plain _ _ c hc).1

/-- A printed number reads back as itself. -/
theorem readNat_printNat (n : Nat) : readNat (printNat n) = some n := by
  have h := readDigits_decimalDigits (n + 1) n (by omega)
  have hx : ∀ c ∈ printNat n, c ≠ 'x' := fun c hc => (decimalDigits_plain _ _ c hc).2.2
  unfold readNat
  split
  · exact absurd ‹_› (printNat_ne_nil n)
  · rename_i e; exact absurd rfl (hx 'x' (by rw [e]; simp))
  · rename_i e; exact absurd rfl (hx 'x' (by rw [e]; simp))
  · exact h

theorem printInt_ne_nil (i : Int) : printInt i ≠ [] := by
  unfold printInt
  split
  · simp
  · exact printNat_ne_nil _

theorem printInt_plain (i : Int) : ∀ c ∈ printInt i, isPlain c = true := by
  unfold printInt
  split
  · intro c hc
    rcases List.mem_cons.mp hc with rfl | hc
    · decide
    · exact printNat_plain _ c hc
  · exact printNat_plain _

/-- A printed integer reads back as itself. -/
theorem readInt_printInt (i : Int) : readInt (printInt i) = some i := by
  unfold printInt
  split
  · have h := readDigits_decimalDigits (i.natAbs + 1) i.natAbs (by omega)
    have hne := printNat_ne_nil i.natAbs
    unfold readInt
    simp only [List.isEmpty_iff, hne, if_false]
    unfold printNat
    rw [h]; exact congrArg some (show -(i.natAbs : Int) = i by omega)
  · have hm : ∀ c ∈ printNat i.natAbs, c ≠ '-' := fun c hc => (decimalDigits_plain _ _ c hc).2.1
    unfold readInt
    split
    · rename_i e; exact absurd rfl (hm '-' (by rw [e]; simp))
    · rw [readNat_printNat]; exact congrArg some (show (i.natAbs : Int) = i by omega)

/-! ### Trimming and cutting -/

theorem isBlank_of_plain {c : Char} (h : isPlain c = true) : isBlank c = false := by
  simp only [isPlain, Bool.and_eq_true, Bool.not_eq_true'] at h; exact h.1.1.1.1

theorem dropWhile_blank {c : Char} {cs : List Char} (h : isBlank c = false) : (c :: cs).dropWhile isBlank = c :: cs := by
  simp [List.dropWhile, h]

/-- Text without a blank at either end is left as it is. -/
theorem trimBlanks_ends {a b : Char} {cs : List Char} (ha : isBlank a = false) (hb : isBlank b = false)
    (hl : (a :: cs).getLast? = some b) : trimBlanks (a :: cs) = a :: cs := by
  have hr : ∃ ds, (a :: cs).reverse = b :: ds := by
    rw [← List.head?_reverse] at hl
    cases h : (a :: cs).reverse with
    | nil => rw [h] at hl; cases hl
    | cons x xs => rw [h] at hl; injection hl with hl; exact ⟨xs, by rw [hl]⟩
  obtain ⟨ds, hds⟩ := hr
  rw [trimBlanks, dropWhile_blank ha, hds, dropWhile_blank hb, ← hds, List.reverse_reverse]

/-- Text without any blank is left as it is. -/
theorem trimBlanks_plain {cs : List Char} (h : ∀ c ∈ cs, isPlain c = true) : trimBlanks cs = cs := by
  cases cs with
  | nil => rfl
  | cons a cs =>
    obtain ⟨b, hb⟩ : ∃ b, (a :: cs).getLast? = some b := ⟨_, List.getLast?_eq_some_getLast (by simp)⟩
    exact trimBlanks_ends (isBlank_of_plain (h a (by simp)))
      (isBlank_of_plain (h b (List.mem_of_getLast? hb))) hb

theorem trimBlanks_blank_cons (cs : List Char) : trimBlanks (' ' :: cs) = trimBlanks cs := by
  simp [trimBlanks, List.dropWhile, isBlank]

theorem splitCommas_plain (cs : List Char) (h : ∀ c ∈ cs, c ≠ ',') : splitCommas cs = [cs] := by
  induction cs with
  | nil => rfl
  | cons c cs ih =>
    rw [splitCommas, ih (fun d hd => h d (by simp [hd]))]
    simp [h c (by simp)]

theorem splitCommas_append (cs ds : List Char) (h : ∀ c ∈ cs, c ≠ ',') :
    splitCommas (cs ++ ',' :: ds) = cs :: splitCommas ds := by
  have hne : ∀ ds, splitCommas ds ≠ [] := by
    intro ds
    cases ds with
    | nil => simp [splitCommas]
    | cons d ds =>
      rw [splitCommas]
      split
      · simp
      · split <;> simp
  induction cs with
  | nil =>
    rw [List.nil_append, splitCommas]
    cases hs : splitCommas ds with
    | nil => exact absurd hs (hne ds)
    | cons g gs => simp
  | cons c cs ih =>
    rw [List.cons_append, splitCommas, ih (fun d hd => h d (by simp [hd]))]
    simp [h c (by simp)]

theorem comma_of_plain {c : Char} (h : isPlain c = true) : c ≠ ',' := by
  rintro rfl; exact absurd h (by decide)

/-- Joined plain operands cut and trim back to themselves. -/
theorem splitCommas_joinOperands (x : List Char) (xs : List (List Char))
    (h : ∀ y ∈ x :: xs, ∀ c ∈ y, isPlain c = true) :
    (splitCommas (joinOperands (x :: xs))).map trimBlanks = x :: xs := by
  induction xs generalizing x with
  | nil =>
    rw [joinOperands, splitCommas_plain _ (fun c hc => comma_of_plain (h x (by simp) c hc))]
    simp [trimBlanks_plain (h x (by simp))]
  | cons y ys ih =>
    have hy := ih y (fun z hz => h z (by simp [List.mem_cons.mp hz]))
    have hsp : (splitCommas (' ' :: joinOperands (y :: ys))).map trimBlanks = y :: ys := by
      rw [splitCommas]
      cases hs : splitCommas (joinOperands (y :: ys)) with
      | nil => rw [hs] at hy; simp at hy
      | cons g gs =>
        rw [hs] at hy
        simpa [trimBlanks_blank_cons] using hy
    rw [joinOperands, splitCommas_append _ _ (fun c hc => comma_of_plain (h x (by simp) c hc)), List.map_cons, hsp,
      trimBlanks_plain (h x (by simp))]

/-! ### Lines -/

/-- A name followed by a blank is cut there. -/
theorem cut_at_blank (name rest : List Char) (h : ∀ c ∈ name, isBlank c = false) :
    (name ++ ' ' :: rest).takeWhile (fun c => !isBlank c) = name ∧
      (name ++ ' ' :: rest).dropWhile (fun c => !isBlank c) = ' ' :: rest := by
  induction name with
  | nil => exact ⟨rfl, rfl⟩
  | cons c cs ih =>
    have := ih (fun d hd => h d (by simp [hd]))
    have hc := h c (by simp)
    simp [hc, this]

theorem stripComment_plain (cs : List Char) (h : ∀ c ∈ cs, c ≠ ';') : stripComment cs = cs := by
  unfold stripComment
  rw [List.takeWhile_eq_self_iff]
  simpa using h

/-- Joined plain operands hold no comment start and no brace. -/
theorem joinOperands_plain : ∀ xs : List (List Char), (∀ x ∈ xs, ∀ c ∈ x, isPlain c = true) →
    ∀ c ∈ joinOperands xs, c ≠ ';' ∧ c ≠ openBrace ∧ c ≠ closeBrace
  | [], _ => by simp [joinOperands]
  | [x], h => by
    intro c hc
    have := h x (by simp) c hc
    simp only [isPlain, Bool.and_eq_true, bne_iff_ne] at this
    exact ⟨this.1.1.2, this.1.2, this.2⟩
  | x :: y :: ys, h => by
    intro c hc
    simp only [joinOperands, List.mem_append, List.mem_cons] at hc
    rcases hc with hc | rfl | rfl | hc
    · have := h x (by simp) c hc
      simp only [isPlain, Bool.and_eq_true, bne_iff_ne] at this
      exact ⟨this.1.1.2, this.1.2, this.2⟩
    · decide
    · decide
    · exact joinOperands_plain (y :: ys) (fun z hz => h z (by simp [List.mem_cons.mp hz])) c hc

/-- Joined plain operands have no blank at either end. -/
theorem joinOperands_ends : ∀ (x : List Char) (xs : List (List Char)), (∀ y ∈ x :: xs, y ≠ []) →
    (∀ y ∈ x :: xs, ∀ c ∈ y, isPlain c = true) →
    ∃ a b cs, joinOperands (x :: xs) = a :: cs ∧ isBlank a = false ∧ (a :: cs).getLast? = some b ∧ isBlank b = false
  | x, [], hn, h => by
    obtain ⟨a, cs, rfl⟩ := List.exists_cons_of_ne_nil (hn x (by simp))
    exact ⟨a, (a :: cs).getLast (by simp), cs, rfl,
      isBlank_of_plain (h _ (List.mem_cons_self ..) a (List.mem_cons_self ..)),
      List.getLast?_eq_some_getLast (by simp),
      isBlank_of_plain (h (a :: cs) (List.mem_cons_self ..) _ (List.getLast_mem (by simp)))⟩
  | x, y :: ys, hn, h => by
    obtain ⟨a, cs, rfl⟩ := List.exists_cons_of_ne_nil (hn x (by simp))
    obtain ⟨a', b, cs', e, ha, hb, hb'⟩ := joinOperands_ends y ys (fun z hz => hn z (by simp [List.mem_cons.mp hz]))
      (fun z hz => h z (by simp [List.mem_cons.mp hz]))
    refine ⟨a, b, _, rfl, isBlank_of_plain (h _ (List.mem_cons_self ..) a (by simp)), ?_, hb'⟩
    show ((a :: cs) ++ ',' :: ' ' :: joinOperands (y :: ys)).getLast? = _
    rw [e, List.getLast?_append]
    simp [List.getLast?_cons_cons] at hb ⊢
    simp [hb]

/-- Joined plain operands are read back one by one. -/
theorem operandTexts_joinOperands (x : List Char) (xs : List (List Char)) (hn : ∀ y ∈ x :: xs, y ≠ [])
    (h : ∀ y ∈ x :: xs, ∀ c ∈ y, isPlain c = true) :
    trimBlanks (joinOperands (x :: xs)) = joinOperands (x :: xs) ∧ operandTexts (joinOperands (x :: xs)) = x :: xs := by
  obtain ⟨a, b, cs, e, ha, hb, hb'⟩ := joinOperands_ends x xs hn h
  have ht : trimBlanks (joinOperands (x :: xs)) = joinOperands (x :: xs) := by rw [e]; exact trimBlanks_ends ha hb' hb
  refine ⟨ht, ?_⟩
  rw [operandTexts, ht, if_neg (by rw [e]; simp), splitCommas_joinOperands x xs h]

theorem mapM_printed {α : Type} (read : List Char → Option α) (print : α → List Char)
    (h : ∀ a, read (print a) = some a) (xs : List α) : (xs.map print).mapM read = some xs := by
  induction xs with
  | nil => rfl
  | cons a xs ih => simp [h, ih]

theorem name_plain {name : List Char} (h : name.all (fun c => !isBlank c && c != ';') = true) :
    ∀ c ∈ name, isBlank c = false ∧ c ≠ ';' := by
  simpa using h

/-- A line of a name, a blank and a text without blanks at its ends is read as the name with that text. -/
theorem parseLine_named (name rest : List Char) (hn : name ≠ []) (hb : ∀ c ∈ name, isBlank c = false ∧ c ≠ ';')
    (hs : ∀ c ∈ rest, c ≠ ';') (ht : trimBlanks rest = rest) (b : Char) (hr : rest.getLast? = some b)
    (hbb : isBlank b = false) : parseLine (name ++ ' ' :: rest) = (parseNamed name rest).map some := by
  have hline : trimBlanks (stripComment (name ++ ' ' :: rest)) = name ++ ' ' :: rest := by
    rw [stripComment_plain]
    · obtain ⟨a, cs, rfl⟩ := List.exists_cons_of_ne_nil hn
      rw [List.cons_append]
      refine trimBlanks_ends (hb a (by simp)).1 hbb ?_
      rw [← List.cons_append, List.getLast?_append]
      cases rest with
      | nil => cases hr
      | cons r rs => simp [List.getLast?_cons_cons] at hr ⊢; simp [hr]
    · intro c hc
      simp only [List.mem_append, List.mem_cons] at hc
      rcases hc with hc | rfl | hc
      · exact (hb c hc).2
      · decide
      · exact hs c hc
  have h := cut_at_blank name rest (fun c hc => (hb c hc).1)
  simp only [parseLine, hline, h.1, h.2, trimBlanks_blank_cons, ht]
  rw [if_neg (by simp)]

/-- A line of a name and joined plain operands is read as the name with those operands. -/
theorem parseLine_operands (name x : List Char) (xs : List (List Char)) (hn : name ≠ [])
    (hb : ∀ c ∈ name, isBlank c = false ∧ c ≠ ';') (hne : ∀ y ∈ x :: xs, y ≠ [])
    (hp : ∀ y ∈ x :: xs, ∀ c ∈ y, isPlain c = true) :
    parseLine (name ++ ' ' :: joinOperands (x :: xs)) = (parseNamed name (joinOperands (x :: xs))).map some ∧
      operandTexts (joinOperands (x :: xs)) = x :: xs := by
  obtain ⟨a, b, cs, e, ha, hl, hb'⟩ := joinOperands_ends x xs hne hp
  have hop := operandTexts_joinOperands x xs hne hp
  exact ⟨parseLine_named name _ hn hb (fun c hc => (joinOperands_plain _ hp c hc).1) hop.1 b (e ▸ hl) hb', hop.2⟩

/-! What each mnemonic is read as. -/

theorem parseNamed_seed (r : List Char) : parseNamed nameSeed r =
    (match (insideBraces r).bind (fun inner => (operandTexts inner).mapM readNat) with
      | some ws => .ok (.core (.seed ws))
      | none => .error .malformed) := rfl

theorem parseNamed_getbits (r : List Char) :
    parseNamed nameGetbits r = readWidth (fun n => .core (.getbits false n)) (operandTexts r) := rfl

theorem parseNamed_getbitsH (r : List Char) :
    parseNamed (nameGetbits ++ suffixH true) r = readWidth (fun n => .core (.getbits true n)) (operandTexts r) := rfl

theorem parseNamed_randint (r : List Char) : parseNamed nameRandint r = readRandint false (operandTexts r) := rfl

theorem parseNamed_randintH (r : List Char) :
    parseNamed (nameRandint ++ suffixH true) r = readRandint true (operandTexts r) := rfl

theorem parseNamed_cmd (r : List Char) :
    parseNamed nameCmd r = readWidth (fun w => .core (.cmd w)) (operandTexts r) := rfl

/-- A printed word reads back as itself. -/
theorem readNat_printHexWord (w : Nat) (h : w < 2 ^ 32) : readNat (printHexWord w) = some w := by
  have e := readDigits_hexDigits 8 w
  have : ∃ d ds, hexDigits 8 w = d :: ds := by
    cases h : hexDigits 8 w with
    | nil => simp [hexDigits] at h
    | cons d ds => exact ⟨d, ds, rfl⟩
  obtain ⟨d, ds, hd⟩ := this
  rw [printHexWord, hd, readNat, ← hd, e]
  · exact congrArg some (Nat.mod_eq_of_lt h)
  · simp

end Sys2Proof.Machine
end

