-- ==== Sys2Proof/Laws/State.lean ====
section
/-! SUPPORT. One lemma per field per update of the state, so that no later proof unfolds an update. -/

namespace Sys2Proof.Machine

/-! ### Answering a command -/

@[simp] theorem respond_engine (s : State) (e : Engine) (st : Status) (r : Dword) : (s.respond e st r).engine = e := rfl
@[simp] theorem respond_inputs (s : State) (e : Engine) (st : Status) (r : Dword) :
    (s.respond e st r).inputs = s.inputsAfterCommand := rfl
@[simp] theorem respond_responses (s : State) (e : Engine) (st : Status) (r : Dword) :
    (s.respond e st r).responses = s.responses ++ [⟨st.code, r⟩] := rfl

@[simp] theorem answered_engine (s : State) (e : Engine) (c : Code) (r : Dword) : (s.answered e c r).engine = e := rfl
@[simp] theorem answered_inputs (s : State) (e : Engine) (c : Code) (r : Dword) :
    (s.answered e c r).inputs = s.inputsAfterCommand := rfl
@[simp] theorem answered_responses (s : State) (e : Engine) (c : Code) (r : Dword) :
    (s.answered e c r).responses = s.responses ++ [⟨c, r⟩] := rfl

/-- The shared answer, in the vocabulary of the statements. -/
theorem respond_eq_answered (s : State) (e : Engine) (st : Status) (r : Dword) :
    s.respond e st r = s.answered e st.code r := rfl

/-! ### The port -/

theorem inputsAfterCommand_command {s : State} {c : Command} {rest : List HostMove}
    (h : s.inputs = .command c :: rest) : s.inputsAfterCommand = rest := by
  simp [State.inputsAfterCommand, h]

theorem presented_command {s : State} {c : Command} {rest : List HostMove}
    (h : s.inputs = .command c :: rest) : s.presented = c := by
  simp [State.presented, h]

@[simp] theorem present_engine (s : State) (c : Command) : (s.present c).engine = s.engine := rfl
@[simp] theorem present_inputs (s : State) (c : Command) : (s.present c).inputs = .command c :: s.inputs := rfl
@[simp] theorem present_responses (s : State) (c : Command) : (s.present c).responses = s.responses := rfl
@[simp] theorem present_presented (s : State) (c : Command) : (s.present c).presented = c := rfl

/-! ### Reset -/

@[simp] theorem assertReset_engine (s : State) (words : Vector Word 32) (rest : List HostMove) :
    (s.assertReset words rest).engine = Engine.reset words := rfl
@[simp] theorem assertReset_inputs (s : State) (words : Vector Word 32) (rest : List HostMove) :
    (s.assertReset words rest).inputs = rest := rfl
@[simp] theorem assertReset_responses (s : State) (words : Vector Word 32) (rest : List HostMove) :
    (s.assertReset words rest).responses = s.responses := rfl
@[simp] theorem reset_S (words : Vector Word 32) : (Engine.reset words).S = words := rfl
@[simp] theorem reset_IDX (words : Vector Word 32) : (Engine.reset words).IDX = 0 := rfl
@[simp] theorem reset_seeded (words : Vector Word 32) : (Engine.reset words).seeded = false := rfl
@[simp] theorem reset_fault (words : Vector Word 32) : (Engine.reset words).fault = 0x00 := rfl

/-! ### The engine -/

@[simp] theorem seedWith_IDX (e : Engine) (ws : List Word) : (e.seedWith ws).IDX = 0 := rfl
@[simp] theorem seedWith_seeded (e : Engine) (ws : List Word) : (e.seedWith ws).seeded = true := rfl
@[simp] theorem seedWith_fault (e : Engine) (ws : List Word) : (e.seedWith ws).fault = e.fault := by
  simp only [Engine.seedWith]
@[simp] theorem seedWith_S (e : Engine) (ws : List Word) : (e.seedWith ws).S = seedVector ws := rfl

/-- Seed word `j` is in `S[j]` (40_generator.md R78). -/
theorem seedVector_get (ws : List Word) (j : Nat) (hj : j < 32) : (seedVector ws)[j] = ws.getD j 0 := by
  rw [seedVector, Vector.getElem_ofFn]

@[simp] theorem advance_IDX (e : Engine) : e.advance.IDX = prevIndex e.IDX := rfl
@[simp] theorem advance_seeded (e : Engine) : e.advance.seeded = e.seeded := by
  simp only [Engine.advance]
@[simp] theorem advance_fault (e : Engine) : e.advance.fault = e.fault := by
  simp only [Engine.advance]
@[simp] theorem nextWord_snd (e : Engine) : e.nextWord.2 = e.advance := rfl

end Sys2Proof.Machine
end

