-- ==== Sys2Proof/Laws/Generator.lean ====
section
/-! SUPPORT. What one generator step does (40_generator.md R72 to R75), said once: which words it writes, what it returns,
and that its transforms lose nothing. -/

namespace Sys2Proof.Machine

/-- The two written indices always differ (40_generator.md R72). -/
theorem prevIndex_ne (i : Fin 32) : prevIndex i ≠ i := by
  revert i; decide

theorem prevIndex_eq (i : Fin 32) : prevIndex i = i + 31 := rfl

/-- The index moves down by one, circularly (40_generator.md R74). -/
theorem prevIndex_val (i : Fin 32) : (prevIndex i).val = (i.val + 31) % 32 := by
  revert i; decide

/-- No tap of `z1` or `z2` but `V0` is a word the step writes (40_generator.md R70). -/
theorem tap_ne (i d : Fin 32) (h : d = Params.m1 ∨ d = Params.m2 ∨ d = Params.m3) :
    i + d ≠ i ∧ i + d ≠ prevIndex i := by
  revert i d; decide

/-- `newV1` is stored at the old index (40_generator.md R72). -/
@[simp] theorem advance_old (e : Engine) : e.advance.S[e.IDX] = e.newV1 := by
  have h : (prevIndex e.IDX).val ≠ e.IDX.val := fun h => prevIndex_ne e.IDX (Fin.ext h)
  simp [Engine.advance, h]

/-- `newV0` is stored at the new index (40_generator.md R72). -/
@[simp] theorem advance_new (e : Engine) : e.advance.S[prevIndex e.IDX] = e.newV0 := by
  simp [Engine.advance]

/-- The other 30 words keep their values (40_generator.md R73). -/
theorem advance_other (e : Engine) (k : Fin 32) (h₁ : k ≠ e.IDX) (h₂ : k ≠ prevIndex e.IDX) :
    e.advance.S[k] = e.S[k] := by
  have h₁' : e.IDX.val ≠ k.val := fun h => h₁ (Fin.ext h.symm)
  have h₂' : (prevIndex e.IDX).val ≠ k.val := fun h => h₂ (Fin.ext h.symm)
  simp [Engine.advance, h₁', h₂']

/-- The step returns `newV0` (40_generator.md R75). -/
@[simp] theorem nextWord_fst (e : Engine) : e.nextWord.1 = e.newV0 := advance_new e

/-- `TNEG(t, v) = 0` only for `v = 0`, when `t` is not 0: the lowest set bit of `v` stays. -/
theorem tneg_eq_zero {t : Nat} (ht : t ≠ 0) {v : Word} (h : tneg t v = 0) : v = 0 := by
  have hv : ∀ i, v.getLsbD i = false := by
    intro i
    induction i using Nat.strong_induction_on with
    | _ i ih =>
      have hi := congrArg (fun x => x.getLsbD i) h
      by_cases hlt : i < t
      · simpa [tneg, hlt] using hi
      · have hprev := ih (i - t) (by omega)
        simpa [tneg, hlt, hprev] using hi
  exact BitVec.eq_of_getLsbD_eq fun i _ => by simpa using hv i

/-- `TNEG` distributes over exclusive or. -/
theorem tneg_xor (t : Nat) (v w : Word) : tneg t (v ^^^ w) = tneg t v ^^^ tneg t w := by
  simp only [tneg, BitVec.shiftLeft_xor_distrib]
  ac_rfl

/-- `TPOS` distributes over exclusive or. -/
theorem tpos_xor (t : Nat) (v w : Word) : tpos t (v ^^^ w) = tpos t v ^^^ tpos t w := by
  simp only [tpos, BitVec.ushiftRight_xor_distrib]
  ac_rfl

/-- `TNEG` is injective, when `t` is not 0. -/
theorem tneg_inj {t : Nat} (ht : t ≠ 0) {v w : Word} (h : tneg t v = tneg t w) : v = w := by
  have : tneg t (v ^^^ w) = 0 := by rw [tneg_xor, h, BitVec.xor_self]; rfl
  exact BitVec.xor_eq_zero_iff.mp (tneg_eq_zero ht this)

/-- Two draws leave the flags alone. -/
theorem getBits_flags (e : Engine) (n : Nat) (high : Bool) :
    (e.getBits n high).2.seeded = e.seeded ∧ (e.getBits n high).2.fault = e.fault := by
  cases high <;> exact ⟨rfl, rfl⟩

/-- `GetBits` draws one word, or two when HIGH (41_bit_extractor.md R87, R91). -/
theorem getBits_snd (e : Engine) (n : Nat) (high : Bool) :
    (e.getBits n high).2 = if high then e.advance.advance else e.advance := by
  cases high <;> rfl

end Sys2Proof.Machine
end

