-- ==== Sys2Proof/Laws/BitExtractor.lean ====
section
/-! SUPPORT. The bit extractor's primitive as arithmetic: masks and joined words are remainders and sums
(00_scope.md R11, 41_bit_extractor.md R88, R89). -/

namespace Sys2Proof.Machine

theorem mask_toNat (n : Nat) (h : n ≤ 64) : (mask n).toNat = 2 ^ n - 1 := by
  simp only [mask, BitVec.toNat_ofNat]
  apply Nat.mod_eq_of_lt
  have : 2 ^ n ≤ 2 ^ 64 := Nat.pow_le_pow_right (by decide) h
  have := Nat.two_pow_pos n
  omega

/-- Masking keeps the low `n` bits. -/
theorem and_mask (x : Dword) (n : Nat) (h : n ≤ 64) : x &&& mask n = BitVec.ofNat 64 (x.toNat % 2 ^ n) := by
  apply BitVec.eq_of_toNat_eq
  rw [BitVec.toNat_and, mask_toNat n h, Nat.and_two_pow_sub_one_eq_mod, BitVec.toNat_ofNat]
  refine (Nat.mod_eq_of_lt ?_).symm
  exact lt_of_le_of_lt (Nat.mod_le _ _) x.isLt

/-- `{w1, w2} = w1 * 2^32 + w2` (00_scope.md R11). -/
theorem concatWords_toNat (w1 w2 : Word) : (concatWords w1 w2).toNat = w1.toNat * 2 ^ 32 + w2.toNat := by
  simp only [concatWords, BitVec.toNat_append]
  rw [← Nat.shiftLeft_add_eq_or_of_lt w2.isLt, Nat.shiftLeft_eq]

theorem zext64_toNat (w : Word) : (zext64 w).toNat = w.toNat := by
  have := w.isLt
  simp only [zext64, BitVec.toNat_setWidth]; omega

/-- The STANDARD primitive: one word, its low `n` bits. -/
theorem getBits_standard (e : Engine) (n : Nat) (h : n ≤ 64) :
    e.getBits n false = (BitVec.ofNat 64 (e.nextWord.1.toNat % 2 ^ n), e.nextWord.2) := by
  simp only [Engine.getBits, and_mask _ _ h, zext64_toNat]; rfl

/-- The HIGH primitive: two words joined, their low `n` bits. -/
theorem getBits_high (e : Engine) (n : Nat) (h : n ≤ 64) :
    e.getBits n true = (BitVec.ofNat 64
      ((e.nextWord.1.toNat * 2 ^ 32 + e.nextWord.2.nextWord.1.toNat) % 2 ^ n), e.nextWord.2.nextWord.2) := by
  simp only [Engine.getBits, and_mask _ _ h, concatWords_toNat]; rfl

end Sys2Proof.Machine
end

