-- ==== Sys2Proof/Laws/Decode.lean ====
section
/-! SUPPORT. The bits of a word laid out by 30_encoding.md R52, and the bits a selected row fixes. -/

namespace Sys2Proof

theorem word_ext {w v : Word} (h : ∀ i : Fin 32, w.getLsbD i = v.getLsbD i) : w = v :=
  BitVec.eq_of_getLsbD_eq fun i hi => h ⟨i, hi⟩

theorem fieldN_lt (w : Word) : fieldN w < 64 := (w.extractLsb' 8 6).isLt

theorem fieldOPC_lt (w : Word) : fieldOPC w < 256 := (w.extractLsb' 0 8).isLt

/-- Bits of the number in field `N` are bits 13:8 of the word. -/
theorem fieldN_bits (w : Word) (j : Nat) :
    (BitVec.ofNat 32 (fieldN w)).getLsbD j = (decide (j < 6) && w.getLsbD (8 + j)) := by
  by_cases h : j < 6
  · rw [fieldN, BitVec.getLsbD_ofNat, ← BitVec.getLsbD, BitVec.getLsbD_extractLsb']
    simp [h]; omega
  · rw [BitVec.getLsbD_ofNat, Nat.testBit_lt_two_pow
      (lt_of_lt_of_le (fieldN_lt w) (Nat.pow_le_pow_right (n := 2) (by decide) (by omega : 6 ≤ j)))]
    simp [h]

theorem layout_bits (opc n : Nat) (h : Bool) (i : Nat) : (layout opc n h).getLsbD i =
    ((BitVec.ofNat 32 opc).getLsbD i ||
      (decide (i < 32) && !decide (i < 8) && (BitVec.ofNat 32 n).getLsbD (i - 8)) || (h && decide (i = 15))) := by
  simp only [layout, BitVec.getLsbD_or, BitVec.getLsbD_shiftLeft]
  congr 1
  cases h
  · simp
  · simp only [if_true, Bool.true_and]
    by_cases hi : i < 32
    · revert i; decide
    · rw [BitVec.getLsbD_of_ge _ _ (by omega)]; simp; omega

/-- A word with no reserved bit is the layout of its fields. -/
theorem layout_eq (w : Word) (opc n : Nat) (h : Bool)
    (hn : ∀ j, (BitVec.ofNat 32 n).getLsbD j = (decide (j < 6) && w.getLsbD (8 + j))) (hh : h = w.getLsbD 15)
    (h1 : ∀ i : Fin 8, w.getLsbD i = (BitVec.ofNat 32 opc).getLsbD i)
    (ho : ∀ i, 8 ≤ i → (BitVec.ofNat 32 opc).getLsbD i = false)
    (h2 : w.getLsbD 14 = false) (h3 : ∀ i, 16 ≤ i → w.getLsbD i = false) : layout opc n h = w := by
  apply word_ext
  intro ⟨i, hi⟩
  simp only [layout_bits, hn]
  subst hh
  by_cases a : i < 8
  · simp [h1 ⟨i, a⟩, a]; omega
  rw [ho i (by omega)]
  by_cases b : i < 14
  · simp [hi, a, show i - 8 < 6 by omega, show i ≠ 15 by omega, show 8 + (i - 8) = i by omega]
  by_cases c : i = 14
  · subst c; simp; simpa using h2
  by_cases d : i = 15
  · subst d; simp
  · simp [show ¬ i - 8 < 6 by omega, h3 i (by omega), d]

/-- Where a row's mask has a bit, a word that selects the row has the row's bit. -/
theorem selects_bit {r : Row} {w : Word} (h : r.selects w = true) (i : Nat) (hm : r.mask.getLsbD i = true) :
    w.getLsbD i = r.pattern.getLsbD i := by
  have e : (w &&& r.mask).getLsbD i = r.pattern.getLsbD i := by rw [eq_of_beq h]
  rwa [BitVec.getLsbD_and, hm, Bool.and_true] at e

end Sys2Proof
end

