-- ==== Sys2Proof/Laws/Flags.lean ====
section
/-! SUPPORT. Every bit of the status word (10_state.md R28). -/

namespace Sys2Proof.Machine

theorem statusWord_bit (e : Engine) (i : Nat) : e.statusWord.getLsbD i =
    if i = 0 then e.seeded else if i = 1 then e.isFaulted else if i < 8 then false
    else if i < 16 then e.fault.getLsbD (i - 8) else false := by
  simp only [Engine.statusWord, BitVec.getLsbD_or, BitVec.getLsbD_shiftLeft, BitVec.getLsbD_setWidth, bit64]
  have hi : ∀ b : Bool, ∀ j : Nat, ((if b then 1 else 0 : Dword)).getLsbD j = (decide (j = 0) && b) := by
    intro b j; cases b <;> simp [BitVec.getLsbD_one]
  simp only [hi]
  by_cases h0 : i = 0
  · subst h0; simp
  by_cases h1 : i = 1
  · subst h1; simp
  by_cases h2 : i < 8
  · simp [h0, h1, h2]; omega
  by_cases h3 : i < 16
  · simp only [h0, h1, h2, h3, if_false, if_true]
    have : i < 64 := by omega
    have : i - 8 < 64 := by omega
    have : i - 1 ≠ 0 := by omega
    simp [*]
  · have : ¬ i - 8 < 8 := by omega
    have : i - 1 ≠ 0 := by omega
    simp only [h0, h1, h2, h3, if_false]
    simp [*]
    intro _ _; exact BitVec.getLsbD_of_ge _ _ (by omega)

end Sys2Proof.Machine
end

