-- ==== Sys2Proof/Laws/PerInstr.lean ====
section
/-! SUPPORT. Statements about every instruction as syntax, one lemma per constructor. -/

namespace Sys2Proof.Laws.WordSelectsRow

/-- The word of a well-formed instruction sets no reserved bit, selects a row of the table of 30_encoding.md R54, and
carries that row's operation code (R52, R53). -/
def Statement (i : Instr) : Prop :=
  i.wf = true → fieldRSV0 (encode i) = false ∧ fieldRSV1 (encode i) = 0 ∧
    ∃ r ∈ opcodeTable, r.selects (encode i) = true ∧ fieldOPC (encode i) = r.mnemonic.opc

theorem seed (l : Nat) : Statement (.seed l) := by
  intro h
  exact (by decide : ∀ l : Fin 64, fieldRSV0 (encode (.seed l.val)) = false ∧ fieldRSV1 (encode (.seed l.val)) = 0 ∧
    ∃ r ∈ opcodeTable, r.selects (encode (.seed l.val)) = true ∧ fieldOPC (encode (.seed l.val)) = r.mnemonic.opc)
    ⟨l, of_decide_eq_true h⟩

theorem nextword : Statement .nextword := by unfold Statement; decide

theorem getbits (n : Nat) (h : Bool) : Statement (.getbits n h) := by
  intro hw
  exact (by decide : ∀ (n : Fin 64) (h : Bool), fieldRSV0 (encode (.getbits n.val h)) = false ∧
    fieldRSV1 (encode (.getbits n.val h)) = 0 ∧ ∃ r ∈ opcodeTable, r.selects (encode (.getbits n.val h)) = true ∧
      fieldOPC (encode (.getbits n.val h)) = r.mnemonic.opc) ⟨n, of_decide_eq_true hw⟩ h

theorem randint (h : Bool) : Statement (.randint h) := by unfold Statement; revert h; decide

theorem status : Statement .status := by unfold Statement; decide

end Sys2Proof.Laws.WordSelectsRow
end

