-- ==== Sys2Proof/Laws/Port.lean ====
section
/-! SUPPORT. What a command, and a step, can do, said once (60_exceptions.md R117, R123): later proofs split on these
cases and never unfold a meaning. -/

namespace Sys2Proof.Machine

/-! ### The shared checks -/

theorem unlessFaulted_faulted {s : State} (h : s.engine.fault ≠ 0x00) (k : Result) :
    unlessFaulted s k = .next (s.answered s.engine 0xFF 0) := if_pos h

theorem unlessFaulted_clear {s : State} (h : s.engine.fault = 0x00) (k : Result) : unlessFaulted s k = k :=
  if_neg (not_not_intro h)

theorem whenSeeded_true {s : State} (h : s.engine.seeded = true) (k : Result) : whenSeeded s k = k := if_pos h

theorem whenSeeded_false {s : State} (h : s.engine.seeded = false) (k : Result) :
    whenSeeded s k = .next (s.answered s.engine 0x02 0) := if_neg (by simp [h])

/-! ### What a command can do -/

/-- The ways a command is answered (60_exceptions.md R117): the engine it leaves, its status and its result. -/
inductive CommandAnswer (s : State) (c : Command) (e : Engine) (code : Code) (r : Dword) : Prop where
  /-- An error (R120) or the faulted refusal (R122): nothing changes. -/
  | rejected (st : Status) (hk : st.kind = .error ∨ st.kind = .faultedRefusal) (he : e = s.engine) (hc : code = st.code)
      (hr : r = 0)
  /-- A fault: only `FAULT` is written (R121). -/
  | faulted (st : Status) (hk : st.kind = .fault) (hf : s.engine.fault = 0x00)
      (he : e = { s.engine with fault := st.code }) (hc : code = st.code) (hr : r = 0)
  /-- `STATUS` answers (43_status.md R113). -/
  | status (hd : decode c.word = .legal .status) (he : e = s.engine) (hc : code = 0x00) (hr : r = s.engine.statusWord)
  /-- A `SEED` is accepted (40_generator.md R77). -/
  | loaded (hd : decode c.word = .legal (.seed 32)) (hf : s.engine.fault = 0x00) (hl : c.seed.length = 32)
      (hz : allZero c.seed = false) (he : e = s.engine.seedWith c.seed) (hc : code = 0x00) (hr : r = 0)
  /-- A draw succeeds: one word, or two when HIGH (41_bit_extractor.md R91, 42_ranged_integer.md R108). -/
  | drawn (high : Bool) (hf : s.engine.fault = 0x00) (hs : s.engine.seeded = true)
      (he : e = if high then s.engine.advance.advance else s.engine.advance) (hc : code = 0x00)

/-- The outcomes of a command at the port: an answer, or the one refusal (20_memory.md R39). -/
inductive CommandOutcome (s : State) (c : Command) (o : Result) : Prop where
  | answered (e : Engine) (code : Code) (r : Dword) (ha : CommandAnswer s c e code r)
      (ho : o = .next (s.answered e code r))
  | refused (hd : decode c.word = .legal (.seed 32)) (hf : s.engine.fault = 0x00) (hl : c.seed.length ≠ 32)
      (ho : o = .refused .seedListLength)

theorem exec_outcome (s : State) (c : Command) (i : Instr) (hp : s.presented = c) (hd : decode c.word = .legal i) :
    CommandOutcome s c (exec i s) := by
  by_cases hst : i = .status
  · subst hst; exact .answered _ _ _ (.status hd rfl rfl rfl) rfl
  by_cases hf : s.engine.fault = 0x00
  swap
  · have hff : CommandOutcome s c (.next (s.answered s.engine 0xFF 0)) :=
      .answered _ _ _ (.rejected .faulted (.inr rfl) rfl rfl rfl) rfl
    cases i with
    | seed l => simpa only [exec, execSeed, unlessFaulted_faulted hf] using hff
    | nextword => simpa only [exec, execNextword, unlessFaulted_faulted hf] using hff
    | getbits n h => simpa only [exec, execGetbits, unlessFaulted_faulted hf] using hff
    | randint h => simpa only [exec, execRandint, unlessFaulted_faulted hf] using hff
    | status => exact absurd rfl hst
  cases i with
  | seed l =>
    simp only [exec, execSeed, unlessFaulted_clear hf, hp, Params.seedLen]
    split
    · exact .answered _ _ _ (.faulted .faultSeedLength rfl hf rfl rfl rfl) rfl
    · rename_i hl
      obtain rfl : l = 32 := not_not.mp hl
      split
      · exact .refused hd hf ‹_› rfl
      · split
        · exact .answered _ _ _ (.rejected .invalidSeed (.inl rfl) rfl rfl rfl) rfl
        · exact .answered _ _ _ (.loaded hd hf (not_not.mp ‹_›) (by simpa using ‹¬allZero c.seed = true›) rfl rfl rfl) rfl
  | nextword =>
    simp only [exec, execNextword, unlessFaulted_clear hf]
    cases hs : s.engine.seeded
    · rw [whenSeeded_false hs]; exact .answered _ _ _ (.rejected .notSeeded (.inl rfl) rfl rfl rfl) rfl
    · rw [whenSeeded_true hs]; exact .answered _ _ _ (.drawn false hf hs rfl rfl) rfl
  | getbits n h =>
    simp only [exec, execGetbits, unlessFaulted_clear hf]
    cases hs : s.engine.seeded
    · rw [whenSeeded_false hs]; exact .answered _ _ _ (.rejected .notSeeded (.inl rfl) rfl rfl rfl) rfl
    · rw [whenSeeded_true hs]
      split
      · exact .answered _ _ _ (.rejected .invalidBitWidth (.inl rfl) rfl rfl rfl) rfl
      · exact .answered _ _ _ (.drawn _ hf hs (getBits_snd _ _ _) rfl) rfl
  | randint h =>
    simp only [exec, execRandint, unlessFaulted_clear hf]
    cases hs : s.engine.seeded
    · rw [whenSeeded_false hs]; exact .answered _ _ _ (.rejected .notSeeded (.inl rfl) rfl rfl rfl) rfl
    · rw [whenSeeded_true hs]
      split
      · exact .answered _ _ _ (.rejected .invalidRange (.inl rfl) rfl rfl rfl) rfl
      · split
        · exact .answered _ _ _ (.faulted .faultPrecisionCeiling rfl hf rfl rfl rfl) rfl
        · exact .answered _ _ _ (.drawn _ hf hs (getBits_snd _ _ _) rfl) rfl
  | status => exact absurd rfl hst

/-- Everything a command at the port can do. -/
theorem runCommand_outcome (s : State) (c : Command) (hp : s.presented = c) : CommandOutcome s c (s.runCommand c) := by
  unfold State.runCommand
  cases hd : decode c.word with
  | legal i => exact exec_outcome s c i hp hd
  | illegal why =>
    by_cases hf : s.engine.fault = 0x00
    · have h : rejectIllegal s = .next (s.answered s.engine Status.illegalCommand.code 0) := unlessFaulted_clear hf _
      rw [h]; exact .answered _ _ _ (.rejected .illegalCommand (.inl rfl) rfl rfl rfl) rfl
    · have h : rejectIllegal s = .next (s.answered s.engine Status.faulted.code 0) := unlessFaulted_faulted hf _
      rw [h]; exact .answered _ _ _ (.rejected .faulted (.inr rfl) rfl rfl rfl) rfl

/-! ### What a step can do -/

theorem step_empty {s : State} (h : s.inputs = []) : step s = .next s := by
  simp [step, State.acceptNext, h]

theorem step_reset {s : State} {words : Vector Word 32} {rest : List HostMove} (h : s.inputs = .reset words :: rest) :
    step s = .next (s.assertReset words rest) := by
  simp [step, State.acceptNext, h]

theorem step_command {s : State} {c : Command} {rest : List HostMove} (h : s.inputs = .command c :: rest) :
    step s = s.runCommand c := by
  simp [step, State.acceptNext, h]

/-- Everything a step on a command can do. -/
theorem step_command_outcome {s : State} {c : Command} {rest : List HostMove} (h : s.inputs = .command c :: rest) :
    CommandOutcome s c (step s) := by
  rw [step_command h]; exact runCommand_outcome s c (presented_command h)

/-- Everything a step on a command can do when it answers a next state. -/
theorem step_command_next {s s' : State} {c : Command} {rest : List HostMove} (h : s.inputs = .command c :: rest)
    (hs : step s = .next s') : ∃ e code r, s' = s.answered e code r ∧ CommandAnswer s c e code r := by
  cases step_command_outcome h with
  | answered e code r ha ho => exact ⟨e, code, r, by rw [hs] at ho; injection ho, ha⟩
  | refused _ _ _ ho => rw [hs] at ho; cases ho

/-- Everything a step can do when it answers a next state: it waits, resets, or answers a command. -/
theorem step_next_cases {s s' : State} (hs : step s = .next s') :
    (s.inputs = [] ∧ s' = s) ∨
    (∃ words rest, s.inputs = .reset words :: rest ∧ s' = s.assertReset words rest) ∨
    (∃ c rest e code r, s.inputs = .command c :: rest ∧ s' = s.answered e code r ∧ CommandAnswer s c e code r) := by
  match h : s.inputs with
  | [] => rw [step_empty h] at hs; injection hs with hs; exact .inl ⟨rfl, hs.symm⟩
  | .reset words :: rest =>
    rw [step_reset h] at hs; injection hs with hs; exact .inr (.inl ⟨words, rest, rfl, hs.symm⟩)
  | .command c :: rest =>
    obtain ⟨e, code, r, he, ha⟩ := step_command_next h hs
    exact .inr (.inr ⟨c, rest, e, code, r, rfl, he, ha⟩)

end Sys2Proof.Machine
end

