-- ==== Sys2Proof/Laws/RangedInteger.lean ====
section
/-! SUPPORT. The mapper's integers: the step count is the ceiling, and a reduced draw stays in the range
(00_scope.md R11, 42_ranged_integer.md R98, R103, R105). -/

namespace Sys2Proof.Machine

/-- The division of the model is the ceiling of the exact quotient. -/
theorem ceilDiv_eq_ceil (x y : Int) (hy : 1 ≤ y) : ceilDiv x y = ⌈(x : ℚ) / (y : ℚ)⌉ := by
  symm
  have hy' : (0 : ℚ) < y := by exact_mod_cast hy
  rw [Int.ceil_eq_iff, lt_div_iff₀ hy', div_le_iff₀ hy']
  unfold ceilDiv
  have h1 := Int.mul_ediv_add_emod (x + y - 1) y
  have h2 := Int.emod_nonneg (x + y - 1) (by omega : y ≠ 0)
  have h3 := Int.emod_lt_of_pos (x + y - 1) (by omega : 0 < y)
  constructor
  · have : ((x + y - 1) / y - 1) * y < x := by nlinarith
    exact_mod_cast this
  · have : x ≤ ((x + y - 1) / y) * y := by nlinarith
    exact_mod_cast this

/-- The step count is at least 1, at most the span, and its last grid point is below the span. -/
theorem ceilDiv_bounds (x y : Int) (hx : 1 ≤ x) (hy : 1 ≤ y) :
    1 ≤ ceilDiv x y ∧ y * (ceilDiv x y - 1) < x ∧ ceilDiv x y ≤ x := by
  unfold ceilDiv
  have h1 := Int.mul_ediv_add_emod (x + y - 1) y
  have h2 := Int.emod_nonneg (x + y - 1) (by omega : y ≠ 0)
  have h3 := Int.emod_lt_of_pos (x + y - 1) (by omega : 0 < y)
  refine ⟨Int.le_ediv_of_mul_le (by omega) (by omega), by nlinarith, ?_⟩
  rw [Int.ediv_le_iff_le_mul (by omega)]
  nlinarith

/-- On a legal range the step count is at least 1. -/
theorem stepCount_pos (c : Command) (h1 : c.a.toInt < c.b.toInt) (h2 : 1 ≤ c.c.toInt) : 1 ≤ c.stepCount :=
  (ceilDiv_bounds c.span c.step (by simp only [Command.span, Command.max, Command.min, s64]; omega) h2).1

/-- On a legal range a reduced draw is `min` at least, below `max`, and keeps its value as a 64-bit pattern. -/
theorem reduce_bounds (c : Command) (r : Dword) (h1 : c.a.toInt < c.b.toInt) (h2 : 1 ≤ c.c.toInt) :
    c.a.toInt ≤ c.reduce r ∧ c.reduce r < c.b.toInt ∧ (u64 (c.reduce r)).toInt = c.reduce r := by
  obtain ⟨k1, k2, k3⟩ := ceilDiv_bounds c.span c.step
    (by simp only [Command.span, Command.max, Command.min, s64]; omega) h2
  have m1 := Int.emod_nonneg (r.toNat : Int) (by unfold Command.stepCount; omega : c.stepCount ≠ 0)
  have m2 := Int.emod_lt_of_pos (r.toNat : Int) (by unfold Command.stepCount; omega : 0 < c.stepCount)
  have l1 : c.a.toInt ≤ c.reduce r := by
    simp only [Command.reduce, Command.min, Command.step, s64]; nlinarith
  have l2 : c.reduce r < c.b.toInt := by
    have : c.step * ((r.toNat : Int) % c.stepCount) ≤ c.step * (ceilDiv c.span c.step - 1) := by
      apply mul_le_mul_of_nonneg_left _ (by simp only [Command.step, s64]; omega)
      unfold Command.stepCount at *; omega
    simp only [Command.reduce, Command.span, Command.max, Command.min, s64] at *; omega
  refine ⟨l1, l2, ?_⟩
  have a1 := c.a.le_toInt; have a2 := c.b.toInt_lt
  rw [u64, BitVec.toInt_ofInt]
  apply Int.bmod_eq_of_le <;> simp at * <;> omega

end Sys2Proof.Machine
end

