-- ==== Sys2Proof/Tests/Slice0.lean ====
section
/-! SUPPORT. Tests, their expected values from 30_encoding.md R52 to R68 and 95_test_vectors.md, and a witness for every
statement with hypotheses: a state and operands that meet all of them. -/

namespace Sys2Proof.Tests

open Sys2Proof.Machine

/-! ### Helpers -/

/-- Seed A of 95_test_vectors.md: `S[j] = j + 1`. -/
def seedA : List Word := (List.range 32).map (fun j => BitVec.ofNat 32 (j + 1))

/-- Seed B of 95_test_vectors.md: `S[0] = 1`, all others 0. -/
def seedB : List Word := 1 :: List.replicate 31 0

/-- An engine fresh from an accepted seed. -/
def fresh (ws : List Word) : Engine := { S := seedVector ws, IDX := 0, seeded := true, fault := 0x00 }

/-- An engine after a reset that left seed A in `S`. -/
def unseeded : Engine := Engine.reset (seedVector seedA)

/-- Seed A after a ceiling fault. -/
def faulted : Engine := { fresh seedA with fault := 0x81 }

/-- A machine whose host has the given moves before it. -/
def withMoves (e : Engine) (moves : List HostMove) : State := { engine := e, inputs := moves, responses := [] }

/-- A machine with one command at its port. -/
def atPort (e : Engine) (c : Command) : State := withMoves e [.command c]

/-- A `RANDINT` transaction. -/
def range (w : Word) (min max step : Int) : Command :=
  { bareCommand w with a := BitVec.ofInt 64 min, b := BitVec.ofInt 64 max, c := BitVec.ofInt 64 step }

/-- A `SEED` transaction. -/
def seeding (w : Word) (ws : List Word) : Command := { bareCommand w with seed := ws }

/-- The state a step answers. -/
def after (o : Result) : State := match o with
  | .next s => s
  | _ => State.powerUp (Vector.replicate 32 0)

/-- Whether a step answers a next state. -/
def isNext (o : Result) : Bool := match o with
  | .next _ => true
  | _ => false

theorem next_after {o : Result} (h : isNext o = true) : o = .next (after o) := by
  cases o with
  | next s => rfl
  | fault f => cases h
  | refused r => cases h

/-- The last response given and the index, after one step on a command. -/
def answer (e : Engine) (c : Command) : Option Response × Fin 32 :=
  ((after (step (atPort e c))).responses.getLast?, (after (step (atPort e c))).engine.IDX)

/-! ### Well-formedness: an ill-formed term for each check, refused (30_encoding.md R56) -/

theorem test_wf_seed_64 : (Instr.seed 64).wf = false := by decide
theorem test_wf_getbits_64 : (Instr.getbits 64 true).wf = false := by decide

/-! ### Words written out bit by bit from the fields of 30_encoding.md R52: `RSV1`, `H`, `RSV0`, `N`, `OPC` -/

theorem test_word_seed : decode 0b0000000000000000_0_0_100000_00000001 = .legal (.seed 32) := by decide
theorem test_word_seed_31 : decode 0b0000000000000000_0_0_011111_00000001 = .legal (.seed 31) := by decide
theorem test_word_nextword : decode 0b0000000000000000_0_0_000000_00000010 = .legal .nextword := by decide
theorem test_word_getbits : decode 0b0000000000000000_0_0_110101_00000011 = .legal (.getbits 53 false) := by decide
theorem test_word_getbits_high : decode 0b0000000000000000_1_0_001000_00000011 = .legal (.getbits 8 true) := by decide
theorem test_word_randint : decode 0b0000000000000000_0_0_000000_00000100 = .legal (.randint false) := by decide
theorem test_word_randint_high : decode 0b0000000000000000_1_0_000000_00000100 = .legal (.randint true) := by decide
theorem test_word_status : decode 0b0000000000000000_0_0_000000_00000101 = .legal .status := by decide

/-- 95_test_vectors.md §2.5, §2.2 and §3 P5: words no row takes. -/
theorem test_words_illegal : decodeTableWord 32 0x00000000 = none ∧ decodeTableWord 32 0x00000006 = none ∧
    decodeTableWord 32 0x00000102 = none ∧ decodeTableWord 32 0x00008002 = none ∧ decodeTableWord 32 0x00008005 = none ∧
    decodeTableWord 32 0x00010004 = none ∧ decodeTableWord 32 0x00006001 = none ∧ decodeTableWord 32 0x0000A001 = none ∧
    decodeTableWord 32 0x00004803 = none ∧ decodeTableWord 32 0x00000104 = none ∧ decodeTableWord 32 0x00004002 = none ∧
    decodeTableWord 32 0xFFFFFFFF = none := by decide

/-! ### Fetch: each row's word is decoded and runs first after reset -/

theorem test_fetch_decodes : decodeTableWord 32 0x2001 = some (.seed 32) ∧ decodeTableWord 32 2 = some .nextword ∧
    decodeTableWord 32 3 = some (.getbits 0 false) ∧ decodeTableWord 32 0x8004 = some (.randint true) ∧
    decodeTableWord 32 5 = some .status := by decide

theorem test_fetch_runs : ∀ w ∈ [0x2001, 0x1F01, 2, 3, 0x803, 4, 0x8004, 5],
    isNext (step (State.reset.withFetchWord 32 w)) = true := by decide

/-! ### One command from a fresh seed: 95_test_vectors.md §2.1 to §2.5 -/

theorem test_seed_a : answer unseeded (seeding 0x2001 seedA) = (some ⟨0x00, 0⟩, 0) ∧
    (after (step (atPort unseeded (seeding 0x2001 seedA)))).engine = fresh seedA := by decide
theorem test_seed_31 : (after (step (atPort unseeded (seeding 0x1F01 (seedA.take 31))))).engine.statusWord = 0x8002 := by
  decide

theorem test_nextword_a : answer (fresh seedA) (bareCommand 0x2) = (some ⟨0x00, 0x58C982B7⟩, 31) ∧
    (after (step (atPort (fresh seedA) (bareCommand 0x2)))).engine.S[0] = 0x00CAC017 := by decide
/-- Worked by hand in 95_test_vectors.md §2.1: seeds B and D. -/
theorem test_nextword_b_d : answer (fresh seedB) (bareCommand 0x2) = (some ⟨0x00, 0x00000081⟩, 31) ∧
    answer (fresh (List.replicate 31 0 ++ [0x80000000])) (bareCommand 0x2) = (some ⟨0x00, 0x80000000⟩, 31) := by decide

theorem test_getbits_8_and_40 : answer (fresh seedA) (bareCommand 0x803) = (some ⟨0x00, 0xB7⟩, 31) ∧
    answer (fresh seedA) (bareCommand 0x2803) = (some ⟨0x00, 0x000000B76CC8E0B9⟩, 30) := by decide
theorem test_getbits_high_8_and_53 : answer (fresh seedA) (bareCommand 0x8803) = (some ⟨0x00, 0xB9⟩, 30) ∧
    answer (fresh seedA) (bareCommand 0xB503) = (some ⟨0x00, 0x000982B76CC8E0B9⟩, 30) := by decide

theorem test_randint_signed : answer (fresh seedA) (range 0x4 (-10) (-1) 1) = (some ⟨0x00, 0xFFFFFFFFFFFFFFF8⟩, 31) ∧
    answer (fresh seedA) (range 0x4 (-5) 5 3) = (some ⟨0x00, 4⟩, 31) := by decide
theorem test_randint_span_rule :
    answer (fresh seedA) (range 0x4 0 4294967296 1) = (some ⟨0x00, 1489601207⟩, 31) ∧
    answer (fresh seedA) (range 0x4 0 4294967297 1) = (some ⟨0x00, 1824480770⟩, 30) ∧
    answer (fresh seedA) (range 0x4 4611686018427387904 4611686027017322496 2147483648) =
      (some ⟨0x00, 0x4000000080000000⟩, 30) := by decide

theorem test_status_faulted : answer faulted (bareCommand 0x5) = (some ⟨0x00, 0x8103⟩, 0) := by decide
theorem test_check_order : answer unseeded (bareCommand 0x3) = (some ⟨0x02, 0⟩, 0) ∧
    answer faulted (bareCommand 0x0) = (some ⟨0xFF, 0⟩, 0) ∧ answer faulted (bareCommand 0x8005) = (some ⟨0xFF, 0⟩, 0) ∧
    answer unseeded (range 0x4 0 (2 ^ 60) 1) = (some ⟨0x02, 0⟩, 0) := by decide

/-! ### The assembler: lines of 95_test_vectors.md §3 -/

theorem test_assemble_randint : assembleText "RANDINT -5, 5, 3 ; stepped".toList = .ok (some (range 0x4 (-5) 5 3)) := by rfl
theorem test_assemble_unknown : assembleText "NEXTBYTE".toList = .error .unknownMnemonic := by rfl

/-! ### Witnesses: encoding -/

theorem witness_DecodeOfEncode : (Instr.seed 63).wf = true ∧ Instr.nextword.wf = true ∧ (Instr.getbits 63 true).wf = true ∧
    (Instr.randint true).wf = true ∧ Instr.status.wf = true := by decide +kernel

theorem witness_EncodeOfDecode : decode 0x0000BF03 = .legal (.getbits 63 true) := by decide

theorem witness_TableRowsSelectTheirWords : ∀ r ∈ opcodeTable, r.selects r.pattern = true ∧
    (r.mnemonic = .getbits → r.selects 0x0000BF03 = true) := by decide

/-- One word for each point of the rule, and the all-zero word. -/
theorem witness_IllegalWords : decode 0x00000000 = .illegal .unknownOpcode ∧ decode 0x00000006 = .illegal .unknownOpcode ∧
    decode 0x000000FF = .illegal .unknownOpcode ∧ decode 0x00004803 = .illegal .reservedBitSet ∧
    decode 0x00010004 = .illegal .reservedBitSet ∧ decode 0x00000102 = .illegal .countNotZero ∧
    decode 0x00008005 = .illegal .precisionNotZero ∧
    (atPort (fresh seedA) (bareCommand 0x8005)).inputs = .command (bareCommand 0x8005) :: [] ∧
    (atPort (fresh seedA) (bareCommand 0x8005)).engine.fault = 0x00 ∧
    decode (bareCommand 0x8005).word = .illegal .precisionNotZero := by decide

/-! ### Witnesses: the port -/

theorem witness_StepRunsTheDecodedInstruction :
    (atPort unseeded (bareCommand 0x2)).inputs = .command (bareCommand 0x2) :: [] ∧
    decode (bareCommand 0x2).word = .legal .nextword := by decide

theorem witness_ResetMoveResetsTheEngine :
    (withMoves faulted [.reset (seedVector seedB), .command (bareCommand 0x5)]).inputs =
      .reset (seedVector seedB) :: [.command (bareCommand 0x5)] := by decide

theorem witness_EmptyPortWaits : State.reset.inputs = [] := by decide

theorem witness_EveryCommandGetsOneResponse : ∃ s' : State,
    (atPort unseeded (bareCommand 0x2)).inputs = .command (bareCommand 0x2) :: [] ∧
    step (atPort unseeded (bareCommand 0x2)) = .next s' := ⟨_, by decide, next_after (by decide)⟩

/-- A state of each side: the refusal, and a list of the right length. -/
theorem witness_StepStopsOnlyOnABrokenSeedDuty :
    (step (atPort unseeded (seeding 0x2001 [1])) = .refused .seedListLength ∧ (seeding 0x2001 [1]).seed.length ≠ 32) ∧
    isNext (step (atPort unseeded (seeding 0x2001 seedA))) = true := ⟨⟨rfl, by decide⟩, by decide⟩

theorem witness_StepGoesOnWhenTheDutyIsKept : ∀ (c : Command) (rest : List HostMove),
    (atPort unseeded (seeding 0x2001 seedA)).inputs = .command c :: rest → c.dutyKept = true := by
  intro c rest h
  injection h with h _
  injection h with h
  subst h; decide

/-! ### Witnesses: the generator -/

theorem witness_NonzeroStateIsPreserved : ∃ j : Fin 32, (fresh seedB).S[j] ≠ 0 := by decide

theorem witness_GeneratorTransitionIsLinear : ∃ e₁ e₂ e : Engine, e₁.IDX = e.IDX ∧ e₂.IDX = e.IDX ∧
    ∀ k : Fin 32, e.S[k] = e₁.S[k] ^^^ e₂.S[k] :=
  ⟨fresh seedA, fresh seedB, fresh (0 :: seedA.tail), by decide, by decide, by decide⟩

theorem witness_NextwordReturnsTheNextWord :
    ((atPort (fresh seedA) (bareCommand 0x2)).engine.fault = 0x00 ∧
      (atPort (fresh seedA) (bareCommand 0x2)).engine.seeded = true) ∧
    ((atPort unseeded (bareCommand 0x2)).engine.fault = 0x00 ∧
      (atPort unseeded (bareCommand 0x2)).engine.seeded = false) ∧
    (atPort faulted (bareCommand 0x2)).engine.fault ≠ 0x00 := by decide

/-- "One bit suffices": seed B, on an unseeded and on a seeded engine. -/
theorem witness_SeedLoadsTheWords : (unseeded.seeded = false ∧ (fresh seedA).seeded = true) ∧ ∀ e ∈ [unseeded, fresh seedA],
    (atPort e (seeding 0x2001 seedB)).engine.fault = 0x00 ∧
    (atPort e (seeding 0x2001 seedB)).presented.seed.length = 32 ∧
    ∃ w ∈ (atPort e (seeding 0x2001 seedB)).presented.seed, w ≠ 0 := by
  refine ⟨by decide, fun e he => ⟨?_, rfl, 1, .head _, by decide⟩⟩
  rcases List.mem_pair.mp he with rfl | rfl <;> rfl

theorem witness_SeedOfZeroWordsIsRejected :
    (atPort unseeded (seeding 0x2001 (List.replicate 32 0))).engine.fault = 0x00 ∧
    (atPort unseeded (seeding 0x2001 (List.replicate 32 0))).presented.seed = List.replicate 32 0 := by decide

theorem witness_SeedLengthFault : ∀ l ∈ [0, 31, 33, 63],
    (atPort unseeded (bareCommand (encode (.seed l)))).engine.fault = 0x00 ∧ l ≠ 32 := by decide +kernel

theorem witness_SeedListOfAnotherLengthIsRefused : ∀ ws ∈ [[], seedA.take 31, 1 :: seedA],
    (atPort unseeded (seeding 0x2001 ws)).engine.fault = 0x00 ∧
    (atPort unseeded (seeding 0x2001 ws)).presented.seed.length ≠ 32 := by decide

/-! ### Witnesses: the bit extractor -/

theorem witness_GetbitsStandardKeepsTheLowBits : ∀ n ∈ [1, 32],
    (atPort (fresh seedA) (bareCommand (encode (.getbits n false)))).engine.fault = 0x00 ∧
    (atPort (fresh seedA) (bareCommand (encode (.getbits n false)))).engine.seeded = true ∧ 1 ≤ n ∧ n ≤ 32 := by decide

/-- The ends of the two clauses: 1 and 32 by `H`, 33 and 53 by width. -/
theorem witness_GetbitsHighJoinsTwoWords : ∀ p ∈ [(1, true), (32, true), (33, false), (53, false), (53, true)],
    (atPort (fresh seedA) (bareCommand (encode (.getbits p.1 p.2)))).engine.fault = 0x00 ∧
    (atPort (fresh seedA) (bareCommand (encode (.getbits p.1 p.2)))).engine.seeded = true ∧
    1 ≤ p.1 ∧ p.1 ≤ 53 ∧ (p.2 = true ∨ 32 < p.1) := by decide

theorem witness_GetbitsRejectsTheWidth : ∀ n ∈ [0, 54, 63],
    (atPort (fresh seedA) (bareCommand (encode (.getbits n false)))).engine.fault = 0x00 ∧
    (atPort (fresh seedA) (bareCommand (encode (.getbits n false)))).engine.seeded = true ∧ (n < 1 ∨ 53 < n) := by decide

theorem witness_GetbitsResultHasWidthN : ∃ (t : State) (r : Response),
    exec (.getbits 53 false) (atPort (fresh seedA) (bareCommand 0x3503)) = .next t ∧
    t.responses = (atPort (fresh seedA) (bareCommand 0x3503)).responses ++ [r] ∧ r.status = 0x00 :=
  ⟨_, ⟨0x00, 0x000982B76CC8E0B9⟩, next_after (by decide), by decide, by decide⟩

/-! ### Witnesses: the mapper -/

/-- Spans 1 and `2^32` for the first clause, `2^32 + 1` and `2^53` for the second, and `H` on a small span. -/
theorem witness_RandintReducesTheDraw :
    (∀ p ∈ [((0 : Int), (1 : Int), false), (0, 2 ^ 32, false), (0, 2 ^ 32 + 1, false), (-2 ^ 52, 2 ^ 52, false), (1, 7, true)],
      (atPort (fresh seedA) (range 0x4 p.1 p.2.1 1)).engine.fault = 0x00 ∧
      (atPort (fresh seedA) (range 0x4 p.1 p.2.1 1)).engine.seeded = true ∧
      (atPort (fresh seedA) (range 0x4 p.1 p.2.1 1)).presented.a.toInt <
        (atPort (fresh seedA) (range 0x4 p.1 p.2.1 1)).presented.b.toInt ∧
      1 ≤ (atPort (fresh seedA) (range 0x4 p.1 p.2.1 1)).presented.c.toInt ∧
      (atPort (fresh seedA) (range 0x4 p.1 p.2.1 1)).presented.b.toInt -
        (atPort (fresh seedA) (range 0x4 p.1 p.2.1 1)).presented.a.toInt ≤ 2 ^ 53) ∧
    (range 0x4 0 (2 ^ 32) 1).b.toInt - (range 0x4 0 (2 ^ 32) 1).a.toInt = 2 ^ 32 ∧
    (range 0x4 0 (2 ^ 32 + 1) 1).b.toInt - (range 0x4 0 (2 ^ 32 + 1) 1).a.toInt = 2 ^ 32 + 1 ∧
    (range 0x4 (-2 ^ 52) (2 ^ 52) 1).b.toInt - (range 0x4 (-2 ^ 52) (2 ^ 52) 1).a.toInt = 2 ^ 53 := by decide

theorem witness_RandintResultIsInRange : ∃ (t : State) (r : Response),
    exec (.randint false) (atPort (fresh seedA) (range 0x4 (-10) (-1) 1)) = .next t ∧
    t.responses = (atPort (fresh seedA) (range 0x4 (-10) (-1) 1)).responses ++ [r] ∧ r.status = 0x00 :=
  ⟨_, ⟨0x00, 0xFFFFFFFFFFFFFFF8⟩, next_after (by decide), by decide, by decide⟩

theorem witness_RandintRejectsTheRange : ∀ p ∈ [((7 : Int), (7 : Int), (1 : Int)), (7, 3, 1), (0, 10, 0), (0, 10, -1)],
    (atPort (fresh seedA) (range 0x4 p.1 p.2.1 p.2.2)).engine.fault = 0x00 ∧
    (atPort (fresh seedA) (range 0x4 p.1 p.2.1 p.2.2)).engine.seeded = true ∧
    ((atPort (fresh seedA) (range 0x4 p.1 p.2.1 p.2.2)).presented.b.toInt ≤
        (atPort (fresh seedA) (range 0x4 p.1 p.2.1 p.2.2)).presented.a.toInt ∨
      (atPort (fresh seedA) (range 0x4 p.1 p.2.1 p.2.2)).presented.c.toInt < 1) := by decide

/-- The least span that faults, the largest there is, and the one that is just allowed. -/
theorem witness_RandintCeilingFault : ((range 0x4 0 (2 ^ 53) 1).b.toInt - (range 0x4 0 (2 ^ 53) 1).a.toInt = 2 ^ 53 ∧
    1 ≤ (range 0x4 0 (2 ^ 53) 1).c.toInt) ∧ ∀ p ∈ [((0 : Int), (2 ^ 53 + 1 : Int)), (-2 ^ 63, 2 ^ 63 - 1)],
    (atPort (fresh seedA) (range 0x4 p.1 p.2 1)).engine.fault = 0x00 ∧
    (atPort (fresh seedA) (range 0x4 p.1 p.2 1)).engine.seeded = true ∧
    1 ≤ (atPort (fresh seedA) (range 0x4 p.1 p.2 1)).presented.c.toInt ∧
    2 ^ 53 < (atPort (fresh seedA) (range 0x4 p.1 p.2 1)).presented.b.toInt -
      (atPort (fresh seedA) (range 0x4 p.1 p.2 1)).presented.a.toInt := by decide

/-- A span of 1, a step equal to the span, a step above it, and a span above `2^32`. -/
theorem witness_RandintOnePointStillDraws : ∀ p ∈ [((5 : Int), (6 : Int), (1 : Int)), (0, 10, 10), (0, 10, 20),
      (0, 2 ^ 33, 2 ^ 33)],
    (atPort (fresh seedA) (range 0x4 p.1 p.2.1 p.2.2)).engine.fault = 0x00 ∧
    (atPort (fresh seedA) (range 0x4 p.1 p.2.1 p.2.2)).engine.seeded = true ∧
    (range 0x4 p.1 p.2.1 p.2.2).a.toInt < (range 0x4 p.1 p.2.1 p.2.2).b.toInt ∧ 1 ≤ (range 0x4 p.1 p.2.1 p.2.2).c.toInt ∧
    (range 0x4 p.1 p.2.1 p.2.2).b.toInt - (range 0x4 p.1 p.2.1 p.2.2).a.toInt ≤ 2 ^ 53 ∧
    ((range 0x4 p.1 p.2.1 p.2.2).b.toInt - (range 0x4 p.1 p.2.1 p.2.2).a.toInt = 1 ∨
      (range 0x4 p.1 p.2.1 p.2.2).b.toInt - (range 0x4 p.1 p.2.1 p.2.2).a.toInt ≤
        (range 0x4 p.1 p.2.1 p.2.2).c.toInt) := by decide

theorem witness_RandintDefaultRangeIsNextword :
    (atPort (fresh seedA) (range 0x4 0 4294967296 1)).presented.a = 0 ∧
    (atPort (fresh seedA) (range 0x4 0 4294967296 1)).presented.b = 4294967296 ∧
    (atPort (fresh seedA) (range 0x4 0 4294967296 1)).presented.c = 1 := by decide

/-- Both widths, the largest range with its last grid point, and both classes of `randInt(1,7)`. -/
theorem witness_RandintBias :
    ((range 0x4 0 (2 ^ 53) 1).a.toInt < (range 0x4 0 (2 ^ 53) 1).b.toInt ∧ 1 ≤ (range 0x4 0 (2 ^ 53) 1).c.toInt ∧
      (range 0x4 0 (2 ^ 53) 1).b.toInt - (range 0x4 0 (2 ^ 53) 1).a.toInt ≤ 2 ^ 53 ∧
      ((2 ^ 53 - 1 : Nat) : Int) < (range 0x4 0 (2 ^ 53) 1).stepCount) ∧
    (range 0x4 1 7 1).a = 1 ∧ (range 0x4 1 7 1).b = 7 ∧ (range 0x4 1 7 1).c = 1 ∧ (range 0x4 1 7 1).stepCount = 6 := by
  decide

/-! ### Witnesses: errors and faults -/

theorem witness_StatusChangesNothingLater :
    (∃ u : State, Sys2Proof.core.run 1 (withMoves faulted [.command (bareCommand 0x2)]) = .next u) ∧
    (∃ x : Refusal, Sys2Proof.core.run 1 (withMoves unseeded [.command (seeding 0x2001 [])]) = .refused x) ∧
    (withMoves faulted [.command (bareCommand 0x5), .command (bareCommand 0x5), .command (bareCommand 0x2)]).inputs =
      [bareCommand 0x5, bareCommand 0x5].map .command ++ [.command (bareCommand 0x2)] ∧
    ∀ c ∈ [bareCommand 0x5, bareCommand 0x5], c.word = 0x00000005 := ⟨⟨_, rfl⟩, ⟨_, rfl⟩, rfl, by decide⟩

theorem witness_UnseededDrawsAreRejected : (atPort unseeded (bareCommand 0x2)).engine.fault = 0x00 ∧
    (atPort unseeded (bareCommand 0x2)).engine.seeded = false := by decide

/-- A command that raises each of the five errors. -/
theorem witness_ErrorsChangeNoState : ∀ p ∈ [(fresh seedA, bareCommand 0x0, (0x01 : Code)), (unseeded, bareCommand 0x2, 0x02),
      (unseeded, seeding 0x2001 (List.replicate 32 0), 0x03), (fresh seedA, bareCommand 0x3603, 0x04),
      (fresh seedA, range 0x4 5 5 1, 0x05)],
    isNext (step (atPort p.1 p.2.1)) = true ∧
    (after (step (atPort p.1 p.2.1))).responses = (atPort p.1 p.2.1).responses ++ [⟨p.2.2, 0⟩] := by decide +kernel

/-- A command that raises each of the two faults. -/
theorem witness_FaultsWriteOnlyTheCause : ∀ p ∈ [(unseeded, seeding 0x1F01 (seedA.take 31), (0x80 : Code)),
      (fresh seedA, range 0x4 0 9007199254740993 1, 0x81)],
    isNext (step (atPort p.1 p.2.1)) = true ∧
    (after (step (atPort p.1 p.2.1))).responses = (atPort p.1 p.2.1).responses ++ [⟨p.2.2, 0⟩] := by decide +kernel

/-- An ordinary word, an illegal one and `SEED`; `STATUS`; and a reset. -/
theorem witness_FaultedEngineAnswersOnlyStatus :
    (∀ w ∈ ([0x2, 0x8005, 0x2001, 0x5] : List Word),
      (atPort faulted (bareCommand w)).inputs = .command (bareCommand w) :: [] ∧
      (atPort faulted (bareCommand w)).engine.fault ≠ 0x00) ∧
    (withMoves faulted [.reset (seedVector seedB)]).engine.fault ≠ 0x00 ∧
    isNext (step (withMoves faulted [.reset (seedVector seedB)])) = true ∧
    (after (step (withMoves faulted [.reset (seedVector seedB)]))).engine ≠
      (withMoves faulted [.reset (seedVector seedB)]).engine :=
  ⟨fun _ _ => ⟨rfl, (by decide : faulted.fault ≠ 0x00)⟩, by decide, by decide, by decide⟩

theorem witness_ChecksRunInOrder :
    (atPort faulted (range 0x4 0 (2 ^ 60) 1)).inputs = .command (range 0x4 0 (2 ^ 60) 1) :: [] := by decide

/-! ### Witnesses: frames and invariants -/

/-- Every instruction answers a next state somewhere. -/
theorem witness_AccessTable : ∀ i ∈ [Instr.seed 31, .nextword, .getbits 53 false, .randint true, .status],
    isNext (exec i (atPort (fresh seedA) (range 0x4 1 7 1))) = true := by decide

theorem witness_SeededIsSetBySeedAndClearedByReset :
    (isNext (step (atPort unseeded (seeding 0x2001 seedB))) = true ∧
      (atPort unseeded (seeding 0x2001 seedB)).engine.seeded = false ∧
      (after (step (atPort unseeded (seeding 0x2001 seedB)))).engine.seeded = true) ∧
    (isNext (step (withMoves (fresh seedA) [.reset (seedVector seedB)])) = true ∧
      (withMoves (fresh seedA) [.reset (seedVector seedB)]).engine.seeded = true ∧
      (after (step (withMoves (fresh seedA) [.reset (seedVector seedB)]))).engine.seeded = false) := by decide

/-- No word, one, two, and a load. -/
theorem witness_CommandsDrawAtMostTwoWords : ∀ c ∈ [bareCommand 0x3603, bareCommand 0x2, bareCommand 0x8803,
      seeding 0x2001 seedB],
    (atPort (fresh seedA) c).inputs = .command c :: [] ∧ isNext (step (atPort (fresh seedA) c)) = true := by decide

theorem witness_StepKeepsTheInvariant :
    (atPort (fresh seedB) (bareCommand 0x2)).Inv ∧ isNext (step (atPort (fresh seedB) (bareCommand 0x2))) = true :=
  ⟨⟨by decide, by decide, by decide⟩, by decide⟩

/-! ### Witnesses: what the host can learn -/

/-- A word that uses no operand, a `RANDINT` with another seed list, and a `SEED` with other numbers. -/
theorem witness_UnusedOperandsHaveNoEffect :
    ((range 0x2 0 7 1).word = (seeding 0x2 seedA).word ∧ decode (range 0x2 0 7 1).word = .legal .nextword) ∧
    ((range 0x4 1 7 1).word = { range 0x4 1 7 1 with seed := seedA }.word ∧
      (range 0x4 1 7 1).a = { range 0x4 1 7 1 with seed := seedA }.a ∧
      (range 0x4 1 7 1).b = { range 0x4 1 7 1 with seed := seedA }.b ∧
      (range 0x4 1 7 1).c = { range 0x4 1 7 1 with seed := seedA }.c ∧ decode (range 0x4 1 7 1).word = .legal (.randint false)) ∧
    ((seeding 0x2001 seedA).word = { seeding 0x2001 seedA with a := 9 }.word ∧
      (seeding 0x2001 seedA).seed = { seeding 0x2001 seedA with a := 9 }.seed ∧
      decode (seeding 0x2001 seedA).word = .legal (.seed 32)) := by decide

/-- Two machines whose reset words differ. -/
theorem witness_AlikeStatesStayAlike :
    (withMoves unseeded [.command (bareCommand 0x2)]).Alike
      (withMoves (Engine.reset (seedVector seedB)) [.command (bareCommand 0x2)]) ∧ unseeded.S ≠ seedVector seedB :=
  ⟨⟨⟨by decide, by decide, by decide, by decide⟩, by decide, by decide⟩, by decide⟩

theorem witness_ResetWordsCannotBeObserved :
    (∃ u : State, Sys2Proof.core.run 1 (withMoves unseeded [.command (bareCommand 0x2)]) = .next u) ∧
    (∃ r : Refusal, Sys2Proof.core.run 1 (withMoves unseeded [.command (seeding 0x2001 [])]) = .refused r) :=
  ⟨⟨_, rfl⟩, ⟨_, rfl⟩⟩

/-- An unseeded machine and one that is a word into another stream. -/
theorem witness_ReseedRestartsTheStream :
    unseeded.fault = 0x00 ∧ (fresh seedA).advance.fault = 0x00 ∧ unseeded.S ≠ (fresh seedA).advance.S ∧
    (seeding 0x2001 seedB).word = 0x00002001 ∧ (seeding 0x2001 seedB).seed.length = 32 ∧
    (∃ w ∈ (seeding 0x2001 seedB).seed, w ≠ 0) ∧
    ∀ e, (withMoves e [.command (seeding 0x2001 seedB)]).inputs = .command (seeding 0x2001 seedB) :: [] ∧
      (withMoves e [.command (seeding 0x2001 seedB)]).responses = [] :=
  ⟨by decide, by decide, by decide, by decide, by decide, ⟨1, .head _, by decide⟩, fun _ => ⟨rfl, rfl⟩⟩

/-! ### Witnesses: the assembler -/

/-- A pseudo-instruction at the ends of the operand range, and a raw word that is illegal. -/
theorem witness_DisassembleUndoesAssemble :
    (AsmLine.randintMinMax true (-2 ^ 63) (2 ^ 63 - 1)).assemble = .ok (range 0x8004 (-2 ^ 63) (2 ^ 63 - 1) 1) ∧
    (AsmLine.core (.cmd 0xFFFFFFFF)).assemble = .ok (bareCommand 0xFFFFFFFF) ∧
    decode (bareCommand 0xFFFFFFFF).word = .illegal .unknownOpcode := ⟨by rfl, by rfl, by decide⟩

theorem witness_ParseOfPrint : (∀ w, CoreLine.cmd 0xFFFFFFFF = .cmd w → w < 2 ^ 32) ∧
    (∀ w, CoreLine.randint true (-1) 0 1 = .cmd w → w < 2 ^ 32) :=
  ⟨fun w h => by injection h with h; subst h; decide, fun w h => by cases h⟩

theorem witness_AssembledLinesKeepTheDuty :
    (AsmLine.core (.seed [0xFFFFFFFF])).assemble = .ok (seeding 0x101 [0xFFFFFFFF]) ∧
    (AsmLine.getrandbits true 63).assemble = .ok (bareCommand 0xBF03) := ⟨by rfl, by rfl⟩

end Sys2Proof.Tests
end

section
/-! PROOFS of the family 00_scope.md: a step with no host move, and a step under a host that keeps its duty. -/

namespace Sys2Proof.Machine

/-! ### With no host move -/

/-- Settles O10: an empty port is the case of the step that waits. -/
theorem emptyPortWaits : Obligations.EmptyPortWaits := fun _ hport => step_empty hport

/-! ### The host's duty -/

/-- With a `SEED` word the duty is about the length of the list (20_memory.md R39). -/
theorem dutyKept_seed {c : Command} {l : Nat} (hd : decode c.word = .legal (.seed l)) :
    c.dutyKept = true ↔ c.seed.length = l := by
  simp [Command.dutyKept, hd]

/-- The one refusal of a command is a broken duty (20_memory.md R39), so a command that keeps it is answered. -/
theorem CommandOutcome.next_of_dutyKept {s : State} {c : Command} {o : Result} (h : CommandOutcome s c o)
    (hduty : c.dutyKept = true) : ∃ s' : State, o = .next s' := by
  cases h with
  | answered e code r _ ho => exact ⟨s.answered e code r, ho⟩
  | refused hd _ hl _ => exact absurd ((dutyKept_seed hd).mp hduty) hl

/-- Settles O13, by the host's next move: none, the reset input, or a command that keeps the duty. -/
theorem stepGoesOnWhenTheDutyIsKept : Obligations.StepGoesOnWhenTheDutyIsKept := by
  intro s hduty
  match hport : s.inputs with
  | [] => exact ⟨s, step_empty hport⟩
  | .reset words :: rest => exact ⟨s.assertReset words rest, step_reset hport⟩
  | .command c :: rest => exact (step_command_outcome hport).next_of_dutyKept (hduty c rest hport)

end Sys2Proof.Machine
end

section
/-! PROOFS of the family 10_state.md: the state vector (R20), the flags (R21, R22, R28), the reset values (R31) and the
draws before a seed (R33). -/

namespace Sys2Proof.Machine

/-! ### The generator step: linear, and never to all zeros -/

@[simp] theorem tneg_zero (t : Nat) : tneg t 0#32 = 0#32 := by simp [tneg]

@[simp] theorem tpos_zero (t : Nat) : tpos t 0#32 = 0#32 := by simp [tpos]

/-- Every word after a generator step: two are written, the others stay (40_generator.md R72, R73). -/
theorem advance_word (e : Engine) (k : Fin 32) : e.advance.S[k] =
    if k = e.IDX then e.newV1 else if k = prevIndex e.IDX then e.newV0 else e.S[k] := by
  split
  next hold => rw [hold, advance_old]
  next hold =>
    split
    next hnew => rw [hnew, advance_new]
    next hnew => exact advance_other e k hold hnew

/-- The step is undone word by word (40_generator.md R76): the 30 words that stay are zero, so the taps are; then
`newV1` is the old `V0`, and `newV0` is `TNEG` of the old `VRm1`. -/
theorem eq_zero_of_advance_eq_zero {e : Engine} (h : ∀ k : Fin 32, e.advance.S[k] = 0) (k : Fin 32) : e.S[k] = 0 := by
  have hstay : ∀ j : Fin 32, j ≠ e.IDX → j ≠ prevIndex e.IDX → e.S[j] = 0 := fun j hold hnew => by
    rw [← advance_other e j hold hnew, h]
  have htap : ∀ d : Fin 32, d = Params.m1 ∨ d = Params.m2 ∨ d = Params.m3 → e.S[e.IDX + d] = 0 := fun d hd =>
    hstay _ (tap_ne e.IDX d hd).1 (tap_ne e.IDX d hd).2
  have hz2 : e.z2 = 0 := by
    simp only [Engine.z2, htap, true_or, or_true, BitVec.ofNat_eq_ofNat, tneg_zero, BitVec.xor_self]
  have hz1 : e.z1 = 0 := by simpa [Engine.newV1, hz2] using (advance_old e).symm.trans (h _)
  have hV0 : e.newV0 = 0 := (advance_new e).symm.trans (h _)
  have hz0 : e.z0 = 0 := tneg_eq_zero (t := 11) (by decide) (by simpa [Engine.newV0, hz1, hz2] using hV0)
  by_cases hold : k = e.IDX
  · rw [hold]
    simpa only [Engine.z1, htap, true_or, BitVec.ofNat_eq_ofNat, tpos_zero, BitVec.xor_zero] using hz1
  by_cases hnew : k = prevIndex e.IDX
  · rw [hnew]; exact hz0
  · exact hstay k hold hnew

/-- A state vector that is not all zero is not all zero after a generator step (40_generator.md R76). -/
theorem advance_nonzero {e : Engine} (h : e.Nonzero) : e.advance.Nonzero := by
  obtain ⟨j, hj⟩ := h
  by_contra hzero
  exact hj (eq_zero_of_advance_eq_zero (fun k => by_contra fun hk => hzero ⟨k, hk⟩) j)

section
variable {e₁ e₂ e : Engine} (h₁ : e₁.IDX = e.IDX) (h₂ : e₂.IDX = e.IDX)
  (hS : ∀ k : Fin 32, e.S[k] = e₁.S[k] ^^^ e₂.S[k])
include h₁ h₂ hS

theorem z0_xor : e.z0 = e₁.z0 ^^^ e₂.z0 := by
  simp only [Engine.z0, h₁, h₂, hS]

theorem z1_xor : e.z1 = e₁.z1 ^^^ e₂.z1 := by
  simp only [Engine.z1, h₁, h₂, hS, tpos_xor]; ac_rfl

theorem z2_xor : e.z2 = e₁.z2 ^^^ e₂.z2 := by
  simp only [Engine.z2, h₁, h₂, hS, tneg_xor]; ac_rfl

theorem newV1_xor : e.newV1 = e₁.newV1 ^^^ e₂.newV1 := by
  simp only [Engine.newV1, z1_xor h₁ h₂ hS, z2_xor h₁ h₂ hS]; ac_rfl

theorem newV0_xor : e.newV0 = e₁.newV0 ^^^ e₂.newV0 := by
  simp only [Engine.newV0, z0_xor h₁ h₂ hS, z1_xor h₁ h₂ hS, z2_xor h₁ h₂ hS, tneg_xor]; ac_rfl

end

/-- Settles O19, word by word: the two written words are sums of linear transforms, the others stay. -/
theorem generatorTransitionIsLinear : Obligations.GeneratorTransitionIsLinear := by
  intro e₁ e₂ e h₁ h₂ hS
  have hV0 := newV0_xor h₁ h₂ hS
  have hV1 := newV1_xor h₁ h₂ hS
  refine ⟨fun k => ?_, by rw [nextWord_fst, nextWord_fst, nextWord_fst, hV0]⟩
  rw [advance_word, advance_word, advance_word, h₁, h₂]
  split
  next => exact hV1
  next =>
    split
    next => exact hV0
    next => exact hS k

/-! ### Loading a seed (R20) -/

theorem allZero_eq_false {ws : List Word} : allZero ws = false ↔ ∃ w ∈ ws, w ≠ 0 := by
  simp [allZero]

/-- The words of a seed list of 32 words are those of the vector it loads (40_generator.md R78). -/
theorem seedVector_toList {ws : List Word} (hl : ws.length = 32) : (seedVector ws).toList = ws := by
  apply List.ext_getElem
  · rw [Vector.length_toList, hl]
  · intro j hj hj'
    rw [Vector.getElem_toList, seedVector_get ws j (by omega), List.getD_eq_getElem ws 0 hj']

/-- An accepted `SEED` leaves a state vector that is not all zero (40_generator.md R79). -/
theorem seedWith_nonzero (e : Engine) {ws : List Word} (hl : ws.length = 32) (hz : allZero ws = false) :
    (e.seedWith ws).Nonzero := by
  obtain ⟨w, hw, hne⟩ := allZero_eq_false.mp hz
  obtain ⟨j, hj, rfl⟩ := List.getElem_of_mem hw
  refine ⟨⟨j, hl ▸ hj⟩, ?_⟩
  rw [seedWith_S, Fin.getElem_fin, seedVector_get ws j (hl ▸ hj), List.getD_eq_getElem ws 0 hj]
  exact hne

/-! ### The invariant (R20, R22) -/

theorem Status.code_mem_codes (st : Status) : st.code ∈ Status.codes := by
  cases st <;> decide

theorem Status.code_of_kind_fault {st : Status} (hk : st.kind = .fault) : st.code = 0x80 ∨ st.code = 0x81 :=
  match st, hk with
  | .faultSeedLength, _ => .inl rfl
  | .faultPrecisionCeiling, _ => .inr rfl

section
variable {s : State} {c : Command} {e : Engine} {code : Code} {r : Dword}

theorem CommandAnswer.faultLegal (ha : CommandAnswer s c e code r) (h : s.engine.FaultLegal) : e.FaultLegal := by
  cases ha with
  | rejected _ _ he => exact he ▸ h
  | faulted st hk _ he => rw [he]; exact .inr (Status.code_of_kind_fault hk)
  | status _ he => exact he ▸ h
  | loaded _ hf _ _ he => rw [he]; exact .inl ((seedWith_fault _ _).trans hf)
  | drawn high hf _ he => rw [he]; left; cases high <;> simpa using hf

theorem CommandAnswer.nonzeroWhileSeeded (ha : CommandAnswer s c e code r) (h : s.engine.NonzeroWhileSeeded) :
    e.NonzeroWhileSeeded := by
  cases ha with
  | rejected _ _ he => exact he ▸ h
  | faulted _ _ _ he => rw [he]; exact h
  | status _ he => exact he ▸ h
  | loaded _ _ hl hz he => rw [he]; exact fun _ => seedWith_nonzero s.engine hl hz
  | drawn high _ hs he =>
    have hone : s.engine.advance.Nonzero := advance_nonzero (h hs)
    rw [he]
    cases high
    · exact fun _ => hone
    · exact fun _ => advance_nonzero hone

/-- A command's response has a status of the table, and result 0 unless it succeeds (60_exceptions.md R118,
20_memory.md R37). -/
theorem CommandAnswer.response_legal (ha : CommandAnswer s c e code r) : Response.Legal ⟨code, r⟩ := by
  cases ha with
  | rejected st _ _ hc hr => exact ⟨hc ▸ st.code_mem_codes, fun _ => hr⟩
  | faulted st _ _ _ hc hr => exact ⟨hc ▸ st.code_mem_codes, fun _ => hr⟩
  | status _ _ hc => exact ⟨hc ▸ Status.ok.code_mem_codes, fun hne => absurd hc hne⟩
  | loaded _ _ _ _ _ hc => exact ⟨hc ▸ Status.ok.code_mem_codes, fun hne => absurd hc hne⟩
  | drawn _ _ _ _ hc => exact ⟨hc ▸ Status.ok.code_mem_codes, fun hne => absurd hc hne⟩

/-- Answering a command keeps the invariant. -/
theorem State.Inv.answered (h : s.Inv) (ha : CommandAnswer s c e code r) : (s.answered e code r).Inv where
  faultLegal := ha.faultLegal h.faultLegal
  nonzero := ha.nonzeroWhileSeeded h.nonzero
  responses := by
    intro x hx
    rcases List.mem_append.mp hx with hold | hnew
    · exact h.responses x hold
    · obtain rfl := List.mem_singleton.mp hnew
      exact ha.response_legal

end

/-- An engine just reset meets the invariant, whatever its words: it is unseeded and unfaulted (R31). -/
theorem State.inv_of_engine_reset {s : State} {words : Vector Word 32} (he : s.engine = Engine.reset words)
    (hr : ∀ x ∈ s.responses, x.Legal) : s.Inv where
  faultLegal := by rw [he]; exact .inl rfl
  nonzero := by rw [he]; exact fun hs => absurd hs Bool.false_ne_true
  responses := hr

/-- Settles O46, by what a step can do: it waits, resets, or answers a command. -/
theorem stepKeepsTheInvariant : Obligations.StepKeepsTheInvariant := by
  intro s s' h hs
  rcases step_next_cases hs with ⟨_, rfl⟩ | ⟨words, rest, _, rfl⟩ | ⟨c, rest, e, code, r, _, rfl, ha⟩
  · exact h
  · exact State.inv_of_engine_reset (assertReset_engine s words rest) h.responses
  · exact h.answered ha

theorem powerUp_inv (words : Vector Word 32) : (State.powerUp words).Inv :=
  State.inv_of_engine_reset rfl fun _ hx => absurd hx List.not_mem_nil

/-- Settles O47: power-up is a reset with no response given. -/
theorem resetMeetsTheInvariant : Obligations.ResetMeetsTheInvariant := ⟨powerUp_inv, powerUp_inv _⟩

/-! ### The status word, the reset values, and draws before a seed (R28, R31, R33) -/

theorem isFaulted_iff (e : Engine) : e.isFaulted = true ↔ e.fault ≠ 0x00 := bne_iff_ne

/-- Settles O36, bit by bit of the status word. -/
theorem statusReadsTheFlags : Obligations.StatusReadsTheFlags := by
  intro s
  refine ⟨s.engine.statusWord, rfl, ?_, ?_, fun i hlo hhi => ?_, fun i hlo hhi => ?_, fun i hlo => ?_⟩ <;>
    rw [statusWord_bit]
  · exact if_pos rfl
  · exact isFaulted_iff s.engine
  · rw [if_neg (by omega), if_neg (by omega), if_pos (by omega)]
  · rw [if_neg (by omega), if_neg (by omega), if_neg (by omega), if_pos (by omega)]
  · rw [if_neg (by omega), if_neg (by omega), if_neg (by omega), if_neg (by omega)]

/-- The status word of an engine just reset (R28, R31). -/
theorem reset_statusWord (words : Vector Word 32) : (Engine.reset words).statusWord = 0 := by
  simp [Engine.statusWord, Engine.isFaulted, bit64]

/-- Settles O9: the reset record, and the status word of its flags. -/
theorem resetValues : Obligations.ResetValues :=
  ⟨fun words => ⟨rfl, rfl, rfl, reset_statusWord words⟩, rfl⟩

/-- Settles O38: check 4c answers every draw before its own checks (60_exceptions.md R123). -/
theorem unseededDrawsAreRejected : Obligations.UnseededDrawsAreRejected := by
  intro s n h hf hs
  refine ⟨?_, ?_, ?_⟩
  · rw [exec, execNextword, unlessFaulted_clear hf, whenSeeded_false hs]
  · rw [exec, execGetbits, unlessFaulted_clear hf, whenSeeded_false hs]
  · rw [exec, execRandint, unlessFaulted_clear hf, whenSeeded_false hs]

/-! ### The word of a `SEED` (30_encoding.md R54, R64) -/

/-- A legal word's instruction is that of the row it selects, with the word's fields (30_encoding.md R55). -/
theorem decode_legal {w : Word} {i : Instr} (h : decode w = .legal i) :
    ∃ r ∈ opcodeTable, r.selects w = true ∧ r.mnemonic.withFields (fieldN w) (fieldH w) = i := by
  unfold decode at h
  split at h
  next r hr => exact ⟨r, List.mem_of_find?_eq_some hr, by simpa using List.find?_some hr, by injection h⟩
  next => cases h

/-- Every row of the table fixes its operation code and the reserved bits (30_encoding.md R54). -/
theorem row_fixed_bits : ∀ r ∈ opcodeTable, ∀ i : Fin 32, i.val < 8 ∨ i.val = 14 ∨ 16 ≤ i.val →
    r.mask.getLsbD i = true ∧ r.pattern.getLsbD i = (BitVec.ofNat 32 r.mnemonic.opc).getLsbD i := by decide

/-- An operation code fills the low eight bits only (30_encoding.md R52). -/
theorem opc_bit_high (m : Mnemonic) {i : Nat} (hi : 8 ≤ i) : (BitVec.ofNat 32 m.opc).getLsbD i = false := by
  have hlt : m.opc < 2 ^ 8 := by cases m <;> decide
  simp [BitVec.getLsbD_ofNat, Nat.testBit_lt_two_pow (lt_of_lt_of_le hlt (Nat.pow_le_pow_right two_pos hi))]

/-- A word that selects a row is laid out from the row's operation code and its own fields (30_encoding.md R52, R54). -/
theorem layout_of_selects {r : Row} {w : Word} (hr : r ∈ opcodeTable) (h : r.selects w = true) :
    layout r.mnemonic.opc (fieldN w) (fieldH w) = w := by
  have hbit : ∀ i : Fin 32, i.val < 8 ∨ i.val = 14 ∨ 16 ≤ i.val →
      w.getLsbD i = (BitVec.ofNat 32 r.mnemonic.opc).getLsbD i := fun i hi =>
    (selects_bit h i (row_fixed_bits r hr i hi).1).trans (row_fixed_bits r hr i hi).2
  refine layout_eq w _ _ _ (fieldN_bits w) rfl (fun i => ?_) (fun i hi => opc_bit_high _ hi) ?_ (fun i hi => ?_)
  · exact hbit (i.castLE (by decide)) (.inl i.isLt)
  · exact (hbit 14 (.inr (.inl rfl))).trans (opc_bit_high _ (by decide))
  · by_cases hlt : i < 32
    · exact (hbit ⟨i, hlt⟩ (.inr (.inr hi))).trans (opc_bit_high _ (le_trans (by decide) hi))
    · exact BitVec.getLsbD_of_ge _ _ (by omega)

/-- The one word of a `SEED` (30_encoding.md R64). -/
theorem word_of_decode_seed {w : Word} {l : Nat} (h : decode w = .legal (.seed l)) : w = encode (.seed l) := by
  obtain ⟨r, hr, hsel, hi⟩ := decode_legal h
  have hword := layout_of_selects hr hsel
  simp only [opcodeTable, List.mem_cons, List.not_mem_nil, or_false] at hr
  rcases hr with rfl | rfl | rfl | rfl | rfl <;> simp only [Mnemonic.withFields, reduceCtorEq, Instr.seed.injEq] at hi
  have hH : fieldH w = false := selects_bit hsel 15 rfl
  rw [hi, hH] at hword
  exact hword.symm

/-! ### What sets and clears `SEEDED` (R21) -/

section
variable {s : State} {c : Command} {e : Engine} {code : Code} {r : Dword}

/-- No command clears `SEEDED` (R21). -/
theorem CommandAnswer.seeded_stays (ha : CommandAnswer s c e code r) (h : s.engine.seeded = true) :
    e.seeded = true := by
  cases ha with
  | rejected _ _ he => exact he ▸ h
  | faulted _ _ _ he => rw [he]; exact h
  | status _ he => exact he ▸ h
  | loaded _ _ _ _ he => rw [he]; rfl
  | drawn high _ _ he => rw [he]; cases high <;> exact h

/-- Only an accepted `SEED` sets `SEEDED` (R21). -/
theorem CommandAnswer.seed_of_seeded (ha : CommandAnswer s c e code r) (h : s.engine.seeded = false)
    (he' : e.seeded = true) : decode c.word = .legal (.seed 32) ∧ s.engine.fault = 0x00 ∧ c.seed.length = 32 ∧
      ∃ w ∈ c.seed, w ≠ 0 := by
  cases ha with
  | rejected _ _ he => rw [he, h] at he'; cases he'
  | faulted _ _ _ he => rw [he] at he'; exact absurd (h.symm.trans he') Bool.false_ne_true
  | status _ he => rw [he, h] at he'; cases he'
  | loaded hd hf hl hz => exact ⟨hd, hf, hl, allZero_eq_false.mp hz⟩
  | drawn _ _ hs => rw [h] at hs; cases hs

end

/-- Settles O44: waiting keeps `SEEDED`, reset only clears it, and no answer but a load sets it. -/
theorem seededIsSetBySeedAndClearedByReset : Obligations.SeededIsSetBySeedAndClearedByReset := by
  intro s s' hs
  rcases step_next_cases hs with ⟨_, rfl⟩ | ⟨words, rest, hport, rfl⟩ | ⟨c, rest, e, code, r, hport, rfl, ha⟩
  · exact ⟨fun hoff hon => absurd (hoff.symm.trans hon) Bool.false_ne_true,
      fun hon hoff => absurd (hoff.symm.trans hon) Bool.false_ne_true⟩
  · exact ⟨fun _ hon => absurd hon Bool.false_ne_true, fun _ _ => ⟨words, rest, hport⟩⟩
  · refine ⟨fun hoff hon => ?_, fun hon hoff => ?_⟩
    · obtain ⟨hd, hf, hl, hw⟩ := ha.seed_of_seeded hoff hon
      exact ⟨c, rest, hport, word_of_decode_seed hd, hf, hl, hw⟩
    · exact absurd (hoff.symm.trans (ha.seeded_stays hon)) Bool.false_ne_true

end Sys2Proof.Machine
end

section
/-! PROOFS of the family 10_state.md, continued: what each command writes (R29), and what the host cannot see
(R30, R33). -/

namespace Sys2Proof.Machine

/-! ### What each command writes (R29) -/

/-- The engines an instruction may leave (R29). -/
inductive ExecLeaves (s : State) : Instr → Engine → Prop where
  | unchanged (i : Instr) : ExecLeaves s i s.engine
  | seedFault (l : Nat) : ExecLeaves s (.seed l) { s.engine with fault := 0x80 }
  | loaded (l : Nat) (hl : s.presented.seed.length = 32) :
      ExecLeaves s (.seed l) (s.engine.seedWith s.presented.seed)
  | word : ExecLeaves s .nextword s.engine.advance
  | bits (n : Nat) (h high : Bool) : ExecLeaves s (.getbits n h) (s.engine.getBits n high).2
  | integer (h high : Bool) : ExecLeaves s (.randint h) (s.engine.draw high).2
  | rangeFault (h : Bool) : ExecLeaves s (.randint h) { s.engine with fault := 0x81 }

/-- An instruction's answer: one response, the command consumed, and one of the engines it may leave. -/
def ExecAnswers (s : State) (i : Instr) (t : State) : Prop :=
  ∃ e code r, t = s.answered e code r ∧ ExecLeaves s i e

section
variable {s t : State} {i : Instr}

theorem ExecAnswers.of_succeed {e : Engine} {r : Dword} (h : succeed s e r = .next t) (he : ExecLeaves s i e) :
    ExecAnswers s i t := ⟨e, 0x00, r, (Host.Outcome.next.inj h).symm, he⟩

theorem ExecAnswers.of_raiseError {st : Status} (h : raiseError s st = .next t) : ExecAnswers s i t :=
  ⟨s.engine, st.code, 0, (Host.Outcome.next.inj h).symm, .unchanged i⟩

theorem ExecAnswers.of_raiseFault {st : Status} (h : raiseFault s st = .next t)
    (he : ExecLeaves s i { s.engine with fault := st.code }) : ExecAnswers s i t :=
  ⟨_, st.code, 0, (Host.Outcome.next.inj h).symm, he⟩

/-- Behind the faulted check (60_exceptions.md R122), an unfaulted engine's answer decides. -/
theorem ExecAnswers.of_unlessFaulted {k : Result} (h : unlessFaulted s k = .next t)
    (hk : k = .next t → ExecAnswers s i t) : ExecAnswers s i t := by
  by_cases hf : s.engine.fault = 0x00
  · exact hk ((unlessFaulted_clear hf k).symm.trans h)
  · exact .of_raiseError (st := .faulted) ((unlessFaulted_faulted hf k).symm.trans h)

/-- Behind check 4c (60_exceptions.md R123), a seeded engine's answer decides. -/
theorem ExecAnswers.of_whenSeeded {k : Result} (h : whenSeeded s k = .next t)
    (hk : k = .next t → ExecAnswers s i t) : ExecAnswers s i t := by
  cases hs : s.engine.seeded
  · exact .of_raiseError (st := .notSeeded) ((whenSeeded_false hs k).symm.trans h)
  · exact hk ((whenSeeded_true hs k).symm.trans h)

end

/-- Everything an instruction that answers can leave. -/
theorem exec_answers {s t : State} {i : Instr} (h : exec i s = .next t) : ExecAnswers s i t := by
  cases i with
  | seed l =>
    refine .of_unlessFaulted h fun hk => ?_
    split at hk
    next => exact .of_raiseFault hk (.seedFault l)
    next =>
      split at hk
      next => cases hk
      next hl =>
        split at hk
        next => exact .of_raiseError hk
        next => exact .of_succeed hk (.loaded l (not_not.mp hl))
  | nextword => exact .of_unlessFaulted h fun hk => .of_whenSeeded hk fun hk => .of_succeed hk .word
  | getbits n hBit =>
    refine .of_unlessFaulted h fun hk => .of_whenSeeded hk fun hk => ?_
    split at hk
    next => exact .of_raiseError hk
    next => exact .of_succeed hk (.bits n hBit _)
  | randint hBit =>
    refine .of_unlessFaulted h fun hk => .of_whenSeeded hk fun hk => ?_
    split at hk
    next => exact .of_raiseError hk
    next =>
      split at hk
      next => exact .of_raiseFault hk (.rangeFault hBit)
      next => exact .of_succeed hk (.integer hBit _)
  | status => exact .of_succeed h (.unchanged .status)

/-- Two generator steps write at most three different words, since they share one index (40_generator.md R73). -/
theorem advance_advance_other (e : Engine) (k : Fin 32) (h₀ : k ≠ e.IDX) (h₁ : k ≠ e.IDX + 31) (h₂ : k ≠ e.IDX + 30) :
    e.advance.advance.S[k] = e.S[k] := by
  have hidx : prevIndex e.advance.IDX = e.IDX + 30 := by
    rw [advance_IDX, prevIndex_eq, prevIndex_eq, add_assoc]; rfl
  rw [advance_other e.advance k h₁ (hidx ▸ h₂), advance_other e k h₀ h₁]

/-- The frame of a draw, STANDARD or HIGH: the flags stay, the index moves by one or two, and at most three words are
written (41_bit_extractor.md R91). -/
theorem getBits_frame (e : Engine) (n : Nat) (high : Bool) :
    (e.getBits n high).2.fault = e.fault ∧ (e.getBits n high).2.seeded = e.seeded ∧
    ((e.getBits n high).2.IDX = e.IDX + 31 ∨ (e.getBits n high).2.IDX = e.IDX + 30) ∧
    (∀ k : Fin 32, k ≠ e.IDX → k ≠ e.IDX + 31 → k ≠ e.IDX + 30 → (e.getBits n high).2.S[k] = e.S[k]) := by
  refine ⟨(getBits_flags e n high).2, (getBits_flags e n high).1, ?_⟩
  rw [getBits_snd]
  cases high
  · exact ⟨.inl rfl, fun k h₀ h₁ _ => advance_other e k h₀ h₁⟩
  · refine ⟨.inr ?_, advance_advance_other e⟩
    rw [if_pos rfl, advance_IDX, advance_IDX, prevIndex_eq, prevIndex_eq, add_assoc]; rfl

/-- Settles O43: the answer's two lists, then the engine by the instruction's ways to leave it. -/
theorem accessTable : Obligations.AccessTable := by
  intro s t i h
  obtain ⟨e, code, r, rfl, he⟩ := exec_answers h
  refine ⟨⟨⟨code, r⟩, rfl⟩, rfl, ?_⟩
  rw [answered_engine]
  cases he with
  | unchanged =>
    cases i with
    | seed l => exact .inl rfl
    | nextword => exact ⟨rfl, rfl, .inl rfl, fun _ _ _ => rfl⟩
    | getbits n h => exact ⟨rfl, rfl, .inl rfl, fun _ _ _ _ => rfl⟩
    | randint h => exact ⟨.inl rfl, rfl, .inl rfl, fun _ _ _ _ => rfl⟩
    | status => rfl
  | seedFault l => exact .inr (.inl rfl)
  | loaded l hl => exact .inr (.inr ⟨seedWith_fault _ _, rfl, rfl, seedVector_toList hl⟩)
  | word => exact ⟨advance_fault _, advance_seeded _, .inr rfl, advance_other s.engine⟩
  | bits n h high =>
    obtain ⟨hf, hs, hi, hS⟩ := getBits_frame s.engine n high
    exact ⟨hf, hs, .inr hi, hS⟩
  | integer h high =>
    obtain ⟨hf, hs, hi, hS⟩ := getBits_frame s.engine (drawWidth high) high
    exact ⟨.inl hf, hs, .inr hi, hS⟩
  | rangeFault h => exact ⟨.inr rfl, rfl, .inl rfl, fun _ _ _ _ => rfl⟩

/-! ### What the host cannot see (R30, R33) -/

theorem Result.Alike.refl (o : Result) : Result.Alike o o := by
  cases o with
  | next s => exact ⟨⟨rfl, rfl, fun _ => rfl, fun _ => rfl⟩, rfl, rfl⟩
  | fault r => cases r
  | refused r => exact rfl

/-- Outcomes alike are next states alike, or the same refusal. -/
theorem Result.Alike.cases {o o' : Result} (h : Result.Alike o o') :
    (∃ t t', o = .next t ∧ o' = .next t' ∧ t.Alike t') ∨ (∃ r, o = .refused r ∧ o' = .refused r) := by
  match o, o', h with
  | .next t, .next t', h => exact .inl ⟨t, t', rfl, rfl, h⟩
  | .refused r, .refused _, rfl => exact .inr ⟨r, rfl, rfl⟩

/-- Two engines just reset are alike, whatever their words (R33). -/
theorem reset_alike (words words' : Vector Word 32) : (Engine.reset words).Alike (Engine.reset words') where
  seeded := rfl
  fault := rfl
  words := fun h => absurd h Bool.false_ne_true
  index := fun _ => rfl

/-- A `SEED` load leaves the same words whatever the engine held (40_generator.md R81). -/
theorem Engine.Alike.seedWith {e e' : Engine} (h : e.Alike e') (ws : List Word) :
    (e.seedWith ws).Alike (e'.seedWith ws) where
  seeded := rfl
  fault := by rw [seedWith_fault, seedWith_fault, h.fault]
  words := fun _ => rfl
  index := fun _ => rfl

theorem Engine.Alike.withFault {e e' : Engine} (h : e.Alike e') (f : Code) :
    Engine.Alike { e with fault := f } { e' with fault := f } where
  seeded := h.seeded
  fault := rfl
  words := h.words
  index := h.index

theorem Engine.Alike.statusWord_eq {e e' : Engine} (h : e.Alike e') : e.statusWord = e'.statusWord := by
  simp only [Engine.statusWord, Engine.isFaulted, h.fault, h.seeded]

section
variable {s s' : State} (h : s.Alike s')
include h

/-- Seeded machines that are alike are the same machine. -/
theorem State.Alike.eq_of_seeded (hs : s.engine.seeded = true) : s = s' := by
  obtain ⟨⟨hseeded, hfault, hwords, hindex⟩, hinputs, hresponses⟩ := h
  obtain ⟨⟨S, IDX, seeded, fault⟩, inputs, responses⟩ := s
  obtain ⟨⟨S', IDX', seeded', fault'⟩, inputs', responses'⟩ := s'
  rw [State.mk.injEq, Engine.mk.injEq]
  exact ⟨⟨hwords hs, hindex hs, hseeded, hfault⟩, hinputs, hresponses⟩

theorem State.Alike.presented_eq : s.presented = s'.presented := by
  simp only [State.presented, h.inputs]

theorem State.Alike.respond {e e' : Engine} (he : e.Alike e') (st : Status) (r : Dword) :
    (s.respond e st r).Alike (s'.respond e' st r) where
  engine := he
  inputs := by simp only [respond_inputs, State.inputsAfterCommand, h.inputs]
  responses := by simp only [respond_responses, h.responses]

theorem raiseError_alike (st : Status) : Result.Alike (raiseError s st) (raiseError s' st) := h.respond h.engine st 0

theorem unlessFaulted_alike {k k' : Result} (hk : Result.Alike k k') :
    Result.Alike (unlessFaulted s k) (unlessFaulted s' k') := by
  by_cases hf : s.engine.fault = 0x00
  · rw [unlessFaulted_clear hf, unlessFaulted_clear (h.engine.fault ▸ hf)]
    exact hk
  · rw [unlessFaulted_faulted hf, unlessFaulted_faulted (h.engine.fault ▸ hf)]
    exact raiseError_alike h .faulted

/-- Behind check 4c two machines alike are one machine, or both are rejected (R33). -/
theorem whenSeeded_alike {k k' : Result} (hk : s = s' → k = k') :
    Result.Alike (whenSeeded s k) (whenSeeded s' k') := by
  cases hs : s.engine.seeded
  · rw [whenSeeded_false hs, whenSeeded_false (h.engine.seeded ▸ hs)]
    exact raiseError_alike h .notSeeded
  · obtain rfl := h.eq_of_seeded hs
    rw [hk rfl]
    exact .refl _

theorem execSeed_alike (l : Nat) : Result.Alike (execSeed l s) (execSeed l s') := by
  refine unlessFaulted_alike h ?_
  rw [h.presented_eq]
  split
  · exact h.respond (h.engine.withFault _) .faultSeedLength 0
  split
  · exact rfl
  split
  · exact raiseError_alike h .invalidSeed
  · exact h.respond (h.engine.seedWith _) .ok 0

theorem exec_alike (i : Instr) : Result.Alike (exec i s) (exec i s') := by
  cases i with
  | seed l => exact execSeed_alike h l
  | nextword => exact unlessFaulted_alike h (whenSeeded_alike h fun heq => by rw [heq])
  | getbits n hBit => exact unlessFaulted_alike h (whenSeeded_alike h fun heq => by rw [heq])
  | randint hBit => exact unlessFaulted_alike h (whenSeeded_alike h fun heq => by rw [heq])
  | status =>
    rw [exec, exec, execStatus, execStatus, h.engine.statusWord_eq]
    exact h.respond h.engine .ok _

theorem runCommand_alike (c : Command) : Result.Alike (s.runCommand c) (s'.runCommand c) := by
  unfold State.runCommand
  cases decode c.word with
  | legal i => exact exec_alike h i
  | illegal _ => exact unlessFaulted_alike h (raiseError_alike h .illegalCommand)

end

/-- Settles O49, by the host's next move, which the two machines share. -/
theorem alikeStatesStayAlike : Obligations.AlikeStatesStayAlike := by
  intro s s' h
  match hport : s.inputs with
  | [] => rw [step_empty hport, step_empty (h.inputs ▸ hport)]; exact h
  | .reset words :: rest =>
    rw [step_reset hport, step_reset (h.inputs ▸ hport)]
    exact ⟨reset_alike words words, rfl, h.responses⟩
  | .command c :: rest =>
    rw [step_command hport, step_command (h.inputs ▸ hport)]
    exact runCommand_alike h c

theorem run_succ_of_next (M : Host.Core) {s t : M.State} (h : M.step s = .next t) (k : Nat) :
    M.run (k + 1) s = M.run k t := by
  rw [Host.Core.run, h]

theorem run_succ_of_refused (M : Host.Core) {s : M.State} {r : M.Refusal} (h : M.step s = .refused r) (k : Nat) :
    M.run (k + 1) s = .refused r := by
  rw [Host.Core.run, h]

/-- Machines alike stay alike over any number of steps. -/
theorem run_alike (k : Nat) {s s' : State} (h : s.Alike s') :
    Result.Alike (Sys2Proof.core.run k s) (Sys2Proof.core.run k s') := by
  induction k generalizing s s' with
  | zero => exact h
  | succ k ih =>
    rcases (alikeStatesStayAlike s s' h).cases with ⟨t, t', ht, ht', halike⟩ | ⟨r, hr, hr'⟩
    · rw [run_succ_of_next Sys2Proof.core ht, run_succ_of_next Sys2Proof.core ht']; exact ih halike
    · rw [run_succ_of_refused Sys2Proof.core hr, run_succ_of_refused Sys2Proof.core hr']; exact .refl _

theorem State.Alike.observation_eq {s s' : State} (h : s.Alike s') : s.observation = s'.observation := by
  simp only [State.observation, h.responses, h.engine.seeded, h.engine.fault]

/-- Settles O50: two machines just powered up are alike, and so are their runs. -/
theorem resetWordsCannotBeObserved : Obligations.ResetWordsCannotBeObserved := by
  intro words words' moves k
  have halike :
      State.Alike { State.powerUp words with inputs := moves } { State.powerUp words' with inputs := moves } :=
    ⟨reset_alike words words', rfl, rfl⟩
  rcases (run_alike k halike).cases with ⟨t, t', ht, ht', htt'⟩ | ⟨r, hr, hr'⟩
  · refine ⟨fun u hu => ⟨t', ht', ?_⟩, fun r hr => ?_⟩
    · obtain rfl : t = u := by injection ht.symm.trans hu
      exact htt'.observation_eq
    · cases ht.symm.trans hr
  · refine ⟨fun u hu => ?_, fun q hq => ?_⟩
    · cases hr.symm.trans hu
    · exact hr'.trans (hr.symm.trans hq)

end Sys2Proof.Machine
end

section
/-! PROOFS of the family 20_memory.md: what a step does with the command at the port (R36 to R39). -/

namespace Sys2Proof.Machine

/-! ### The instruction a command runs (R36) -/

theorem runCommand_legal (s : State) {c : Command} {i : Instr} (hd : decode c.word = .legal i) :
    s.runCommand c = exec i s := by
  rw [State.runCommand, hd]

theorem runCommand_illegal (s : State) {c : Command} {why : IllegalReason} (hd : decode c.word = .illegal why) :
    s.runCommand c = rejectIllegal s := by
  rw [State.runCommand, hd]

/-- Settles O7: the port's command is the one presented, and its word decides what runs. -/
theorem stepRunsTheDecodedInstruction : Obligations.StepRunsTheDecodedInstruction := by
  intro s c rest i hport hd
  exact ⟨(step_command hport).trans (runCommand_legal s hd), presented_command hport⟩

/-! ### The one response (R37) -/

/-- Settles O11: a command that is answered leaves one response, and every way to answer is the table's. -/
theorem everyCommandGetsOneResponse : Obligations.EveryCommandGetsOneResponse := by
  intro s s' c rest hport hs
  obtain ⟨e, code, r, rfl, ha⟩ := step_command_next hport hs
  obtain ⟨hcode, hresult⟩ := ha.response_legal
  exact ⟨⟨code, r⟩, answered_responses s e code r, inputsAfterCommand_command hport, hcode, hresult⟩

/-! ### The one refusal (R39) -/

/-- Settles O24: the faulted check and the length fault pass, and the list's length is looked at next. -/
theorem seedListOfAnotherLengthIsRefused : Obligations.SeedListOfAnotherLengthIsRefused := by
  intro s hf hl
  rw [exec, execSeed, unlessFaulted_clear hf, if_neg (not_not_intro rfl), if_pos hl]

/-- Everything a refused step tells: an unfaulted engine was given a `SEED` of 32 words with another number of words. -/
theorem step_refused_cases {s : State} {r : Refusal} (hs : step s = .refused r) :
    r = .seedListLength ∧ s.engine.fault = 0x00 ∧ ∃ (c : Command) (rest : List HostMove),
      s.inputs = .command c :: rest ∧ decode c.word = .legal (.seed 32) ∧ c.seed.length ≠ 32 := by
  match hport : s.inputs with
  | [] => cases (step_empty hport).symm.trans hs
  | .reset _ :: _ => cases (step_reset hport).symm.trans hs
  | .command c :: rest =>
    cases step_command_outcome hport with
    | answered _ _ _ _ ho => cases ho.symm.trans hs
    | refused hd hf hl ho => exact ⟨Host.Outcome.refused.inj (hs.symm.trans ho), hf, c, rest, rfl, hd, hl⟩

theorem decode_seedWord : decode 0x00002001 = .legal (.seed 32) := by decide

/-- Settles O12: there is no fault to stop with; a refused step is a broken `SEED` duty, and O24 gives the converse. -/
theorem stepStopsOnlyOnABrokenSeedDuty : Obligations.StepStopsOnlyOnABrokenSeedDuty := by
  intro s
  refine ⟨fun f => (nomatch f), fun r => ⟨fun hs => ?_, ?_⟩⟩
  · obtain ⟨hr, hf, c, rest, hport, hd, hl⟩ := step_refused_cases hs
    exact ⟨hr, hf, c, rest, hport, word_of_decode_seed hd, hl⟩
  · rintro ⟨rfl, hf, c, rest, hport, hw, hl⟩
    obtain ⟨hrun, hp⟩ := stepRunsTheDecodedInstruction s c rest (.seed 32) hport (hw ▸ decode_seedWord)
    rw [hrun]
    exact seedListOfAnotherLengthIsRefused s hf (hp ▸ hl)

/-! ### Ignored operands (R38) -/

/-- Two commands that agree on the operands an instruction uses run it alike: a meaning reads no other part of the
command, and an answer takes the whole command off the port. -/
theorem exec_eq_of_used_operands_eq (s : State) (c c' : Command) (rest : List HostMove) (i : Instr)
    (hrange : (∃ h, i = .randint h) → c.a = c'.a ∧ c.b = c'.b ∧ c.c = c'.c)
    (hseed : (∃ l, i = .seed l) → c.seed = c'.seed) :
    exec i { s with inputs := .command c :: rest } = exec i { s with inputs := .command c' :: rest } := by
  obtain ⟨word, min, max, step, seed⟩ := c
  obtain ⟨word', min', max', step', seed'⟩ := c'
  cases i with
  | seed l =>
    obtain rfl : seed = seed' := hseed ⟨l, rfl⟩
    rfl
  | randint h =>
    obtain ⟨rfl, rfl, rfl⟩ : min = min' ∧ max = max' ∧ step = step' := hrange ⟨h, rfl⟩
    rfl
  | nextword => rfl
  | getbits n h => rfl
  | status => rfl

/-- Settles O48: a legal word runs its instruction on the operands it uses; an illegal one uses none. -/
theorem unusedOperandsHaveNoEffect : Obligations.UnusedOperandsHaveNoEffect := by
  intro s c c' rest hword hrange hseed
  rw [step_command rfl, step_command rfl]
  cases hd : decode c.word with
  | legal i =>
    rw [runCommand_legal _ hd, runCommand_legal _ (hword ▸ hd)]
    rw [hd] at hrange hseed
    exact exec_eq_of_used_operands_eq s c c' rest i
      (fun ⟨h, hi⟩ => hrange ⟨h, congrArg Verdict.legal hi⟩) (fun ⟨l, hi⟩ => hseed ⟨l, congrArg Verdict.legal hi⟩)
  | illegal why =>
    rw [runCommand_illegal _ hd, runCommand_illegal _ (hword ▸ hd)]
    rfl

end Sys2Proof.Machine
end

section
/-! PROOFS of the family 30_encoding.md: the fields of a word (R52), the rows (R54), decoding and encoding (R55, R64), the
canonical words (R68), and the illegal words and their number (R59, R61). -/

namespace Sys2Proof

/-! ### The fields of a laid-out word (R52) -/

/-- A number below `2 ^ k` has no bit from `k` up. -/
theorem getLsbD_ofNat_of_lt {n k i : Nat} (hn : n < 2 ^ k) (hi : k ≤ i) : (BitVec.ofNat 32 n).getLsbD i = false := by
  rw [BitVec.getLsbD_ofNat, Nat.testBit_lt_two_pow (lt_of_lt_of_le hn (Nat.pow_le_pow_right two_pos hi)), Bool.and_false]

section
variable {opc n : Nat} (hopc : opc < 256) (hn : n < 64) (h : Bool)

include hopc in
theorem fieldOPC_layout : fieldOPC (layout opc n h) = opc := by
  have hbits : (layout opc n h).extractLsb' 0 8 = BitVec.ofNat 8 opc := by
    refine BitVec.eq_of_getLsbD_eq fun i hi => ?_
    rw [BitVec.getLsbD_extractLsb', layout_bits, BitVec.getLsbD_ofNat, BitVec.getLsbD_ofNat, BitVec.getLsbD_ofNat]
    simp [hi, show i < 32 by omega, show i ≠ 15 by omega]
  rw [fieldOPC, hbits, BitVec.toNat_ofNat, Nat.mod_eq_of_lt hopc]

include hopc hn in
theorem fieldN_layout : fieldN (layout opc n h) = n := by
  have hbits : (layout opc n h).extractLsb' 8 6 = BitVec.ofNat 6 n := by
    refine BitVec.eq_of_getLsbD_eq fun i hi => ?_
    have hlow : (BitVec.ofNat 32 opc).getLsbD (8 + i) = false := getLsbD_ofNat_of_lt (k := 8) hopc (by omega)
    rw [BitVec.getLsbD_extractLsb', layout_bits, hlow, BitVec.getLsbD_ofNat, BitVec.getLsbD_ofNat]
    simp [hi, show i < 32 by omega, show 8 + i < 32 by omega, show 8 + i ≠ 15 by omega]
  rw [fieldN, hbits, BitVec.toNat_ofNat, Nat.mod_eq_of_lt hn]

include hopc hn in
theorem fieldH_layout : fieldH (layout opc n h) = h := by
  have hlow : (BitVec.ofNat 32 opc).getLsbD 15 = false := getLsbD_ofNat_of_lt (k := 8) hopc (by omega)
  have hcount : (BitVec.ofNat 32 n).getLsbD 7 = false := getLsbD_ofNat_of_lt (k := 6) hn (by omega)
  rw [fieldH, layout_bits, hlow, hcount]
  simp

end

/-- A word with no reserved bit set is laid out from its own fields. -/
theorem layout_fields {w : Word} (h0 : fieldRSV0 w = false) (h1 : fieldRSV1 w = 0) :
    layout (fieldOPC w) (fieldN w) (fieldH w) = w := by
  refine layout_eq w _ _ _ (fieldN_bits w) rfl (fun i => ?_)
    (fun i hi => getLsbD_ofNat_of_lt (k := 8) (fieldOPC_lt w) hi) h0 (fun i hi => ?_)
  · have hi := i.isLt
    rw [fieldOPC, BitVec.getLsbD_ofNat, ← BitVec.getLsbD, BitVec.getLsbD_extractLsb', Nat.zero_add]
    simp [hi, show i.val < 32 by omega]
  · have hzero : w.extractLsb' 16 16 = 0#16 := BitVec.eq_of_toNat_eq h1
    by_cases hlt : i < 32
    · have hbit : (w.extractLsb' 16 16).getLsbD (i - 16) = w.getLsbD i := by
        rw [BitVec.getLsbD_extractLsb', show 16 + (i - 16) = i by omega, decide_eq_true (by omega), Bool.true_and]
      rw [← hbit, hzero, BitVec.getLsbD_zero]
    · exact BitVec.getLsbD_of_ge _ _ (by omega)

end Sys2Proof

namespace Sys2Proof.Machine

/-! ### What a row requires of a word's fields (R54) -/

/-- The fields a row requires, besides the reserved bits 0: its operation code, and `N` and `H` zero where it does not
leave them free (30_encoding.md R54). -/
def Requires (m : Mnemonic) (w : Word) : Prop :=
  match m with
  | .seed => fieldOPC w = 0x01 ∧ fieldH w = false
  | .nextword => fieldOPC w = 0x02 ∧ fieldN w = 0 ∧ fieldH w = false
  | .getbits => fieldOPC w = 0x03
  | .randint => fieldOPC w = 0x04 ∧ fieldN w = 0
  | .status => fieldOPC w = 0x05 ∧ fieldN w = 0 ∧ fieldH w = false

theorem Requires.opc {m : Mnemonic} {w : Word} (h : Requires m w) : fieldOPC w = m.opc := by
  cases m with
  | getbits => exact h
  | _ => exact h.1

/-- Where a row does not leave a field free, the instruction it reads has that field's value 0. -/
theorem Requires.encode_withFields {m : Mnemonic} {w : Word} (h : Requires m w) :
    encode (m.withFields (fieldN w) (fieldH w)) = layout (fieldOPC w) (fieldN w) (fieldH w) := by
  cases m with
  | seed => rw [h.1, h.2]; rfl
  | nextword => rw [h.1, h.2.1, h.2.2]; rfl
  | getbits => rw [show fieldOPC w = 3 from h]; rfl
  | randint => rw [h.1, h.2]; rfl
  | status => rw [h.1, h.2.1, h.2.2]; rfl

/-- An instruction read from a word is well formed: field `N` has six bits (30_encoding.md R56). -/
theorem withFields_wf (m : Mnemonic) (w : Word) : (m.withFields (fieldN w) (fieldH w)).wf = true := by
  cases m with
  | seed => exact decide_eq_true (fieldN_lt w)
  | getbits => exact decide_eq_true (fieldN_lt w)
  | _ => rfl

/-- The rows differ in their operation code (30_encoding.md R54). -/
theorem row_eq_of_opc_eq : ∀ r ∈ opcodeTable, ∀ r' ∈ opcodeTable, r.mnemonic.opc = r'.mnemonic.opc → r = r' := by
  decide

theorem exists_row (m : Mnemonic) : ∃ r ∈ opcodeTable, r.mnemonic = m := by
  cases m <;> decide

theorem opc_injective : Function.Injective Mnemonic.opc := by
  intro m m' h
  obtain ⟨r, hr, rfl⟩ := exists_row m
  obtain ⟨r', hr', rfl⟩ := exists_row m'
  rw [row_eq_of_opc_eq r hr r' hr' h]

theorem opc_lt (m : Mnemonic) : m.opc < 256 := by
  cases m <;> decide

/-- The word of a well-formed instruction has no reserved bit set and selects a row of its operation code
(30_encoding.md R52, R54). -/
theorem encode_selects : ∀ i : Instr, Laws.WordSelectsRow.Statement i
  | .seed l => Laws.WordSelectsRow.seed l
  | .nextword => Laws.WordSelectsRow.nextword
  | .getbits n h => Laws.WordSelectsRow.getbits n h
  | .randint h => Laws.WordSelectsRow.randint h
  | .status => Laws.WordSelectsRow.status

section
variable {r : Row} {w : Word} (hr : r ∈ opcodeTable)
include hr

/-- A row's mask covers `OPC`, and every field the row requires to be 0 (30_encoding.md R54). -/
theorem requires_of_selects (h : r.selects w = true) : Requires r.mnemonic w := by
  have hopc : fieldOPC w = r.mnemonic.opc := by
    rw [← layout_of_selects hr h, fieldOPC_layout (opc_lt _)]
  have hN (hm : ∀ i : Fin 6, r.mask.getLsbD (8 + i) = true ∧ r.pattern.getLsbD (8 + i) = false) : fieldN w = 0 := by
    have hzero : w.extractLsb' 8 6 = 0#6 := BitVec.eq_of_getLsbD_eq fun i hi => by
      obtain ⟨hmask, hpat⟩ := hm ⟨i, hi⟩
      rw [BitVec.getLsbD_extractLsb', selects_bit h _ hmask, hpat, Bool.and_false, BitVec.getLsbD_zero]
    exact congrArg BitVec.toNat hzero
  simp only [opcodeTable, List.mem_cons, List.not_mem_nil, or_false] at hr
  rcases hr with rfl | rfl | rfl | rfl | rfl
  · exact ⟨hopc, selects_bit h 15 rfl⟩
  · exact ⟨hopc, hN (by decide), selects_bit h 15 rfl⟩
  · exact hopc
  · exact ⟨hopc, hN (by decide)⟩
  · exact ⟨hopc, hN (by decide), selects_bit h 15 rfl⟩

/-- No bit of a selected word is dropped: the instruction read from it encodes to it (30_encoding.md R64). -/
theorem encode_withFields_of_selects (h : r.selects w = true) :
    encode (r.mnemonic.withFields (fieldN w) (fieldH w)) = w := by
  have hreq := requires_of_selects hr h
  rw [hreq.encode_withFields, hreq.opc, layout_of_selects hr h]

/-- A row selects a word exactly when the word has the fields the row requires (30_encoding.md R54). -/
theorem selects_iff : r.selects w = true ↔ fieldRSV0 w = false ∧ fieldRSV1 w = 0 ∧ Requires r.mnemonic w := by
  constructor
  · intro h
    obtain ⟨h0, h1, -⟩ := encode_selects _ (withFields_wf r.mnemonic w)
    rw [encode_withFields_of_selects hr h] at h0 h1
    exact ⟨h0, h1, requires_of_selects hr h⟩
  · rintro ⟨h0, h1, hreq⟩
    have hw : encode (r.mnemonic.withFields (fieldN w) (fieldH w)) = w := by
      rw [hreq.encode_withFields, layout_fields h0 h1]
    obtain ⟨-, -, r', hr', hsel, hopc⟩ := encode_selects _ (withFields_wf r.mnemonic w)
    rw [hw] at hsel hopc
    rwa [row_eq_of_opc_eq r hr r' hr' (hreq.opc.symm.trans hopc)]

end

/-- At most one row selects a word: the rows differ in `OPC` (30_encoding.md R54). -/
theorem selects_unique {r r' : Row} {w : Word} (hr : r ∈ opcodeTable) (hr' : r' ∈ opcodeTable)
    (h : r.selects w = true) (h' : r'.selects w = true) : r = r' :=
  row_eq_of_opc_eq r hr r' hr' ((requires_of_selects hr h).opc.symm.trans (requires_of_selects hr' h').opc)

/-- Settles O3: the table is as written, and each row's mask covers the operation code and the fields it requires. -/
theorem tableRowsSelectTheirWords : Obligations.TableRowsSelectTheirWords := by
  refine ⟨rfl, fun r w => beq_iff_eq, fun r hr w => ?_, fun r hr r' hr' w => selects_unique hr hr'⟩
  rw [selects_iff hr]
  simp only [opcodeTable, List.mem_cons, List.not_mem_nil, or_false] at hr
  rcases hr with rfl | rfl | rfl | rfl | rfl <;> rfl

/-! ### Decoding and encoding undo each other (R55, R64) -/

/-- A word decodes to the instruction of the one row it selects, with its fields (30_encoding.md R55). -/
theorem decode_of_selects {r : Row} {w : Word} (hr : r ∈ opcodeTable) (h : r.selects w = true) :
    decode w = .legal (r.mnemonic.withFields (fieldN w) (fieldH w)) := by
  unfold decode
  split
  next r' hr' =>
    rw [selects_unique hr (List.mem_of_find?_eq_some hr') h (by simpa using List.find?_some hr')]
  next hnone => exact absurd h (List.find?_eq_none.mp hnone r hr)

/-- Settles O2: a legal word has the fields its row requires, so it is laid out from the instruction read from it. -/
theorem encodeOfDecode : Obligations.EncodeOfDecode := by
  intro w i hd
  obtain ⟨r, hr, hsel, rfl⟩ := decode_legal hd
  exact ⟨withFields_wf r.mnemonic w, encode_withFields_of_selects hr hsel⟩

/-- The row of an instruction. -/
def mnemonicOf : Instr → Mnemonic
  | .seed _ => .seed
  | .nextword => .nextword
  | .getbits _ _ => .getbits
  | .randint _ => .randint
  | .status => .status

/-- Field `N` of an instruction's word. -/
def countOf : Instr → Nat
  | .seed l => l
  | .getbits n _ => n
  | _ => 0

/-- Bit `H` of an instruction's word. -/
def highOf : Instr → Bool
  | .getbits _ h => h
  | .randint h => h
  | _ => false

theorem encode_eq_layout (i : Instr) : encode i = layout (mnemonicOf i).opc (countOf i) (highOf i) := by
  cases i <;> rfl

theorem withFields_mnemonicOf (i : Instr) : (mnemonicOf i).withFields (countOf i) (highOf i) = i := by
  cases i <;> rfl

theorem countOf_lt {i : Instr} (hi : i.wf = true) : countOf i < 64 := by
  cases i with
  | seed l => exact of_decide_eq_true hi
  | getbits n h => exact of_decide_eq_true hi
  | _ => exact Nat.zero_lt_succ 63

/-- Settles O1: the word selects the row of its operation code, and its fields are those it was laid out from. -/
theorem decodeOfEncode : Obligations.DecodeOfEncode := by
  intro i hi
  obtain ⟨-, -, r, hr, hsel, hopc⟩ := encode_selects i hi
  rw [decode_of_selects hr hsel]
  rw [encode_eq_layout] at hopc ⊢
  rw [fieldOPC_layout (opc_lt _)] at hopc
  rw [fieldN_layout (opc_lt _) (countOf_lt hi), fieldH_layout (opc_lt _) (countOf_lt hi), ← opc_injective hopc,
    withFields_mnemonicOf]

/-- The legal words are the words of the well-formed instructions, one each. -/
theorem decode_eq_legal_iff {w : Word} {i : Instr} : decode w = .legal i ↔ i.wf = true ∧ encode i = w :=
  ⟨encodeOfDecode w i, fun ⟨hi, hw⟩ => hw ▸ decodeOfEncode i hi⟩

/-- Settles O6: each line's word is computed, and decoding undoes encoding. -/
theorem canonicalCommandWords : Obligations.CanonicalCommandWords := by
  intro p hp
  have hword : p.1.wf = true ∧ encode p.1 = p.2 := by
    revert p
    decide
  exact ⟨hword.2, decode_eq_legal_iff.mpr hword⟩

/-! ### The illegal words (R59) -/

theorem decode_eq_illegal_iff {w : Word} :
    (∃ why, decode w = .illegal why) ↔ ∀ r ∈ opcodeTable, ¬ r.selects w = true := by
  constructor
  · rintro ⟨why, hd⟩ r hr hsel
    cases (decode_of_selects hr hsel).symm.trans hd
  · intro hnone
    cases hd : decode w with
    | illegal why => exact ⟨why, rfl⟩
    | legal i =>
      obtain ⟨r, hr, hsel, -⟩ := decode_legal hd
      exact absurd hsel (hnone r hr)

/-- A word is illegal exactly when it has a reserved bit set or the fields of no row (30_encoding.md R54, R59). -/
theorem illegal_iff_no_row {w : Word} :
    (∃ why, decode w = .illegal why) ↔ fieldRSV0 w = true ∨ fieldRSV1 w ≠ 0 ∨ ∀ m, ¬ Requires m w := by
  rw [decode_eq_illegal_iff]
  constructor
  · intro hnone
    by_contra! hcon
    obtain ⟨h0, h1, m, hreq⟩ := hcon
    obtain ⟨r, hr, rfl⟩ := exists_row m
    exact hnone r hr ((selects_iff hr).mpr ⟨by simpa using h0, h1, hreq⟩)
  · intro h r hr hsel
    obtain ⟨h0, h1, hreq⟩ := (selects_iff hr).mp hsel
    rcases h with h | h | h
    · simp [h0] at h
    · exact h h1
    · exact h _ hreq

/-- No row has the fields of a word: its operation code is no row's, or a field its row fixes is not 0. -/
theorem no_row_iff {w : Word} : (∀ m, ¬ Requires m w) ↔ (fieldOPC w = 0x00 ∨ 0x06 ≤ fieldOPC w) ∨
    (fieldN w ≠ 0 ∧ (fieldOPC w = 0x02 ∨ fieldOPC w = 0x04 ∨ fieldOPC w = 0x05)) ∨
    (fieldH w = true ∧ (fieldOPC w = 0x01 ∨ fieldOPC w = 0x02 ∨ fieldOPC w = 0x05)) := by
  have hall : (∀ m, ¬ Requires m w) ↔ ¬ Requires .seed w ∧ ¬ Requires .nextword w ∧ ¬ Requires .getbits w ∧
      ¬ Requires .randint w ∧ ¬ Requires .status w :=
    ⟨fun h => ⟨h _, h _, h _, h _, h _⟩, fun ⟨h1, h2, h3, h4, h5⟩ m => by cases m <;> assumption⟩
  rw [hall]
  cases hH : fieldH w with
  | false => simp only [Requires, hH, and_true, reduceCtorEq, false_and, or_false]; omega
  | true => simp only [Requires, hH, and_false, reduceCtorEq, not_false_eq_true, true_and, and_true]; omega

theorem step_illegal {s : State} {c : Command} {rest : List HostMove} {why : IllegalReason}
    (hport : s.inputs = .command c :: rest) (hf : s.engine.fault = 0x00) (hd : decode c.word = .illegal why) :
    step s = .next (s.answered s.engine 0x01 0) := by
  rw [step_command hport, runCommand_illegal s hd, rejectIllegal, unlessFaulted_clear hf]
  rfl

/-- Settles O4: an illegal word has a reserved bit set or the fields of no row; a rejected command changes nothing. -/
theorem illegalWords : Obligations.IllegalWords := by
  refine ⟨fun w => ?_, ⟨.unknownOpcode, by decide⟩, fun s c rest why => step_illegal⟩
  rw [illegal_iff_no_row, no_row_iff]
  tauto

/-! ### Counting the legal words (R61) -/

/-- Distinct well-formed instructions have distinct words, so a family of them has as many words as members. -/
theorem ncard_words {α : Type} [Fintype α] (f : α → Instr) (hf : Function.Injective f) (hwf : ∀ a, (f a).wf = true) :
    {w : Word | ∃ a, decode w = .legal (f a)}.ncard = Fintype.card α := by
  have hset : {w : Word | ∃ a, decode w = .legal (f a)} = Set.range (encode ∘ f) := by
    ext w
    simp only [Set.mem_ofPred_eq, Set.mem_range, Function.comp_apply, decode_eq_legal_iff, hwf, true_and]
  have hinj : Function.Injective (encode ∘ f) := fun a b hab => by
    have hd := (decodeOfEncode _ (hwf a)).symm.trans ((congrArg decode hab).trans (decodeOfEncode _ (hwf b)))
    exact hf (Verdict.legal.inj hd)
  rw [hset, Set.ncard_range_of_injective hinj, Nat.card_eq_fintype_card]

theorem ncard_seed_words : {w : Word | ∃ l, decode w = .legal (.seed l)}.ncard = 64 := by
  have hset : {w : Word | ∃ l, decode w = .legal (.seed l)} = {w | ∃ l : Fin 64, decode w = .legal (.seed l)} := by
    ext w
    exact ⟨fun ⟨l, hd⟩ => ⟨⟨l, countOf_lt (encodeOfDecode w _ hd).1⟩, hd⟩, fun ⟨l, hd⟩ => ⟨l, hd⟩⟩
  rw [hset, ncard_words (fun l : Fin 64 => .seed l) (fun a b hab => Fin.ext (Instr.seed.inj hab))
    (fun l => decide_eq_true l.isLt), Fintype.card_fin]

theorem ncard_getbits_words : {w : Word | ∃ n h, decode w = .legal (.getbits n h)}.ncard = 128 := by
  have hset : {w : Word | ∃ n h, decode w = .legal (.getbits n h)} =
      {w | ∃ p : Fin 64 × Bool, decode w = .legal (.getbits p.1 p.2)} := by
    ext w
    exact ⟨fun ⟨n, h, hd⟩ => ⟨(⟨n, countOf_lt (encodeOfDecode w _ hd).1⟩, h), hd⟩, fun ⟨p, hd⟩ => ⟨p.1, p.2, hd⟩⟩
  rw [hset, ncard_words (fun p : Fin 64 × Bool => .getbits p.1 p.2)
    (fun a b hab => Prod.ext (Fin.ext (Instr.getbits.inj hab).1) (Instr.getbits.inj hab).2)
    (fun p => decide_eq_true p.1.isLt), Fintype.card_prod, Fintype.card_fin, Fintype.card_bool]

theorem ncard_randint_words : {w : Word | ∃ h, decode w = .legal (.randint h)}.ncard = 2 :=
  ncard_words .randint (fun _ _ hab => Instr.randint.inj hab) (fun _ => rfl)

/-- An instruction without a field has one word. -/
theorem ncard_word {i : Instr} (hi : i.wf = true) : {w : Word | decode w = .legal i}.ncard = 1 := by
  have hset : {w : Word | decode w = .legal i} = {encode i} := by
    ext w
    simp [decode_eq_legal_iff, hi, eq_comm]
  rw [hset, Set.ncard_singleton]

/-- The words of the five rows are all the legal words, and no word is of two rows. -/
theorem ncard_legal_words : {w : Word | ∃ i, decode w = .legal i}.ncard = 196 := by
  have hset : {w : Word | ∃ i, decode w = .legal i} =
      {w : Word | ∃ l, decode w = .legal (.seed l)} ∪ ({w : Word | decode w = .legal .nextword} ∪
        ({w : Word | ∃ n h, decode w = .legal (.getbits n h)} ∪ ({w : Word | ∃ h, decode w = .legal (.randint h)} ∪
          {w : Word | decode w = .legal .status}))) := by
    ext w
    simp only [Set.mem_ofPred_eq, Set.mem_union]
    constructor
    · rintro ⟨i, hd⟩
      cases i <;> simp [hd]
    · rintro (⟨l, hd⟩ | hd | ⟨n, h, hd⟩ | ⟨h, hd⟩ | hd) <;> exact ⟨_, hd⟩
  rw [hset, Set.ncard_union_eq, Set.ncard_union_eq, Set.ncard_union_eq, Set.ncard_union_eq, ncard_seed_words,
    ncard_word rfl, ncard_getbits_words, ncard_randint_words, ncard_word rfl]
  -- Two rows' sets share no word, since a word decodes to one instruction.
  all_goals
    rw [Set.disjoint_left]
    simp +contextual [-Bool.exists_bool]

/-- Settles O5: the rows' words counted by their free fields; the illegal words are the others. -/
theorem legalWordCount : Obligations.LegalWordCount := by
  refine ⟨ncard_seed_words, ncard_word rfl, ncard_getbits_words, ncard_randint_words, ncard_word rfl, ncard_legal_words,
    ?_⟩
  have hset : {w : Word | ∃ why, decode w = .illegal why} = {w : Word | ∃ i, decode w = .legal i}ᶜ := by
    ext w
    cases hd : decode w <;> simp [hd]
  rw [hset, Set.ncard_compl, ncard_legal_words, Nat.card_congr BitVec.equivFin.toEquiv, Nat.card_fin]

end Sys2Proof.Machine
end

section
/-! PROOFS of the family 30_encoding.md, continued: the assembler, disassembly, and reading a printed line back
(R63 to R66). -/

namespace Sys2Proof.Machine

/-! ### What an assembled line is (R63, R64) -/

/-- A line that is not refused is in the ranges of 30_encoding.md R63, and gives this transaction (R64). -/
inductive Assembles : CoreLine → Command → Prop where
  | seed (ws : List Nat) (hlen : ws.length < 64) (hws : ∀ w ∈ ws, w < 2 ^ 32) :
      Assembles (.seed ws) { bareCommand (encode (.seed ws.length)) with seed := ws.map (BitVec.ofNat 32) }
  | nextword : Assembles .nextword (bareCommand (encode .nextword))
  | getbits (h : Bool) (n : Nat) (hn : n < 64) : Assembles (.getbits h n) (bareCommand (encode (.getbits n h)))
  | randint (h : Bool) (min max step : Int) (hmin : inS64 min = true) (hmax : inS64 max = true)
      (hstep : inS64 step = true) :
      Assembles (.randint h min max step)
        { bareCommand (encode (.randint h)) with a := u64 min, b := u64 max, c := u64 step }
  | status : Assembles .status (bareCommand (encode .status))
  | cmd (w : Nat) (hw : w < 2 ^ 32) : Assembles (.cmd w) (bareCommand (BitVec.ofNat 32 w))

/-- Everything assembly can give. -/
theorem assembles_of_assemble {l : CoreLine} {c : Command} (h : l.assemble = .ok c) : Assembles l c := by
  cases l with
  | seed ws =>
    simp only [CoreLine.assemble] at h
    split at h
    next => cases h
    next hlen =>
      split at h
      next hws =>
        cases h
        exact .seed ws (by omega) (fun w hw => of_decide_eq_true (List.all_eq_true.mp hws w hw))
      next => cases h
  | nextword => cases h; exact .nextword
  | getbits hi n =>
    simp only [CoreLine.assemble] at h
    split at h
    next => cases h
    next hn => cases h; exact .getbits hi n (by omega)
  | randint hi min max step =>
    simp only [CoreLine.assemble] at h
    split at h
    next hin =>
      cases h
      simp only [Bool.and_eq_true] at hin
      obtain ⟨⟨hmin, hmax⟩, hstep⟩ := hin
      exact .randint hi min max step hmin hmax hstep
    next => cases h
  | status => cases h; exact .status
  | cmd w =>
    simp only [CoreLine.assemble] at h
    split at h
    next hw => cases h; exact .cmd w (of_decide_eq_true hw)
    next => cases h

/-- Only a raw line is assembled as a raw line: no pseudo-instruction expands to one (30_encoding.md R66). -/
theorem eq_cmd_of_expand {l : AsmLine} {w : Nat} (h : l.expand = .cmd w) : l = .core (.cmd w) := by
  cases l with
  | core l => exact congrArg AsmLine.core h
  | _ => cases h

/-- Settles O55: expansion is by cases on the line. -/
theorem pseudoInstructionsExpand : Obligations.PseudoInstructionsExpand := fun _ _ _ _ => ⟨rfl, rfl, rfl, rfl⟩

/-- An assembled line other than a raw one has a legal word, and a `SEED` word counts the words of its list
(30_encoding.md R64, 20_memory.md R39). -/
theorem Assembles.legal_dutyKept {l : CoreLine} {c : Command} (h : Assembles l c) (hraw : ∀ w, l ≠ .cmd w) :
    c.dutyKept = true ∧ ∃ i, decode c.word = .legal i ∧ i.wf = true := by
  cases h with
  | seed ws hlen _ =>
    have hwf : (Instr.seed ws.length).wf = true := decide_eq_true hlen
    have hd := decodeOfEncode _ hwf
    exact ⟨(dutyKept_seed hd).mpr (List.length_map _), _, hd, hwf⟩
  | nextword => exact ⟨rfl, _, decodeOfEncode .nextword rfl, rfl⟩
  | getbits h n hn =>
    have hwf : (Instr.getbits n h).wf = true := decide_eq_true hn
    have hd := decodeOfEncode _ hwf
    exact ⟨by simp only [Command.dutyKept, bareCommand, hd], _, hd, hwf⟩
  | randint h =>
    have hd := decodeOfEncode (.randint h) rfl
    exact ⟨by simp only [Command.dutyKept, bareCommand, hd], _, hd, rfl⟩
  | status => exact ⟨rfl, _, decodeOfEncode .status rfl, rfl⟩
  | cmd w _ => exact absurd rfl (hraw w)

/-- Settles O54, for the one command the line expands to. -/
theorem assembledLinesKeepTheDuty : Obligations.AssembledLinesKeepTheDuty := fun _ _ hasm hraw =>
  (assembles_of_assemble hasm).legal_dutyKept fun w hl => hraw w (eq_cmd_of_expand hl)

/-! ### Disassembly (R65) -/

/-- An operand in the range of 30_encoding.md R58 is the two's-complement reading of its pattern. -/
theorem s64_u64 {i : Int} (h : inS64 i = true) : s64 (u64 i) = i := by
  obtain ⟨hlo, hhi⟩ := of_decide_eq_true h
  exact BitVec.toInt_ofInt_eq_self (by decide) (by simpa using hlo) (by simpa using hhi)

/-- Words in range are read back from their 32-bit patterns. -/
theorem map_toNat_ofNat {ws : List Nat} (hws : ∀ w ∈ ws, w < 2 ^ 32) :
    (ws.map (BitVec.ofNat 32)).map BitVec.toNat = ws := by
  rw [List.map_map]
  exact (List.map_congr_left fun w hw => Nat.mod_eq_of_lt (hws w hw)).trans (List.map_id ws)

/-- Disassembly spells the row the word decodes to, with its operands; a raw line's word is illegal
(30_encoding.md R65). -/
theorem Assembles.disassemble_eq {l : CoreLine} {c : Command} (h : Assembles l c)
    (hraw : ∀ w, l = .cmd w → ∃ why, decode c.word = .illegal why) : c.disassemble = l := by
  cases h with
  | seed ws hlen hws =>
    have hd := decodeOfEncode (.seed ws.length) (decide_eq_true hlen)
    simp only [Command.disassemble, bareCommand, hd, map_toNat_ofNat hws]
  | nextword => rfl
  | getbits h n hn =>
    have hd := decodeOfEncode (.getbits n h) (decide_eq_true hn)
    simp only [Command.disassemble, bareCommand, hd]
  | randint h min max step hmin hmax hstep =>
    have hd := decodeOfEncode (.randint h) rfl
    simp only [Command.disassemble, bareCommand, hd, Command.min, Command.max, Command.step, s64_u64 hmin,
      s64_u64 hmax, s64_u64 hstep]
  | status => rfl
  | cmd w hw =>
    obtain ⟨why, hd⟩ := hraw w rfl
    simp only [bareCommand] at hd
    simp only [Command.disassemble, bareCommand, hd, BitVec.toNat_ofNat, Nat.mod_eq_of_lt hw]

/-- Settles O52, for the one command the line expands to. -/
theorem disassembleUndoesAssemble : Obligations.DisassembleUndoesAssemble := fun _ _ hasm hraw =>
  (assembles_of_assemble hasm).disassemble_eq fun w hl => hraw w (eq_cmd_of_expand hl)

/-! ### Reading a printed line (R63, R65) -/

theorem insideBraces_braced (inner : List Char) : insideBraces (openBrace :: inner ++ [closeBrace]) = some inner := by
  simp [insideBraces]

theorem printedNats_plain (ws : List Nat) : ∀ x ∈ ws.map printNat, ∀ c ∈ x, isPlain c = true := by
  intro x hx
  obtain ⟨n, -, rfl⟩ := List.mem_map.mp hx
  exact printNat_plain n

/-- A printed list of numbers, the empty one too, is cut back into its numbers. -/
theorem operandTexts_printedNats (ws : List Nat) : operandTexts (joinOperands (ws.map printNat)) = ws.map printNat := by
  cases ws with
  | nil => rfl
  | cons w ws =>
    have hne : ∀ x ∈ (w :: ws).map printNat, x ≠ [] := by simp [printNat_ne_nil]
    exact (operandTexts_joinOperands _ _ hne (printedNats_plain (w :: ws))).2

theorem parseLine_print_seed (ws : List Nat) :
    parseLine (CoreLine.seed ws).print = .ok (some (.core (.seed ws))) := by
  have hlast : (openBrace :: joinOperands (ws.map printNat) ++ [closeBrace]).getLast? = some closeBrace :=
    List.getLast?_concat ..
  have hcomment : ∀ c ∈ openBrace :: joinOperands (ws.map printNat) ++ [closeBrace], c ≠ ';' := by
    simp only [List.cons_append, List.mem_cons, List.mem_append, List.not_mem_nil, or_false]
    rintro c (rfl | hc | rfl)
    · decide
    · exact (joinOperands_plain _ (printedNats_plain ws) c hc).1
    · decide
  have hline := parseLine_named nameSeed _ (by decide) (name_plain (by decide)) hcomment
    (trimBlanks_ends (by decide) (by decide) hlast) closeBrace hlast (by decide)
  refine hline.trans ?_
  rw [parseNamed_seed, insideBraces_braced, Option.bind_some, operandTexts_printedNats,
    mapM_printed readNat printNat readNat_printNat]
  rfl

/-- A mnemonic that takes one number is read with that number. -/
theorem parseLine_width {name text : List Char} {make : Nat → AsmLine} {n : Nat}
    (hparse : ∀ r, parseNamed name r = readWidth make (operandTexts r)) (hname : name ≠ [])
    (hplain : ∀ c ∈ name, isBlank c = false ∧ c ≠ ';') (hne : text ≠ []) (htext : ∀ c ∈ text, isPlain c = true)
    (hread : readNat text = some n) : parseLine (name ++ ' ' :: text) = .ok (some (make n)) := by
  obtain ⟨hline, hops⟩ := parseLine_operands name text [] hname hplain (by simpa using hne) (by simpa using htext)
  refine hline.trans ?_
  rw [hparse, hops]
  simp [readWidth, hread, Except.map]

theorem printHexWord_plain (w : Nat) : ∀ c ∈ printHexWord w, isPlain c = true := by
  simp only [printHexWord, List.mem_cons]
  rintro c (rfl | rfl | hc)
  · decide
  · decide
  · exact hexDigits_plain 8 w c hc

theorem parseNamed_getbits_suffix (h : Bool) (r : List Char) :
    parseNamed (nameGetbits ++ suffixH h) r = readWidth (fun n => .core (.getbits h n)) (operandTexts r) := by
  cases h with
  | false => exact parseNamed_getbits r
  | true => exact parseNamed_getbitsH r

theorem parseNamed_randint_suffix (h : Bool) (r : List Char) :
    parseNamed (nameRandint ++ suffixH h) r = readRandint h (operandTexts r) := by
  cases h with
  | false => exact parseNamed_randint r
  | true => exact parseNamed_randintH r

theorem parseLine_print_randint (h : Bool) (min max step : Int) :
    parseLine (CoreLine.randint h min max step).print = .ok (some (.core (.randint h min max step))) := by
  have hplain : (nameRandint ++ suffixH h).all (fun c => !isBlank c && c != ';') = true := by cases h <;> decide
  obtain ⟨hline, hops⟩ := parseLine_operands (nameRandint ++ suffixH h) (printInt min) [printInt max, printInt step]
    (by simp [nameRandint]) (name_plain hplain) (by simp [printInt_ne_nil])
    (by simpa using ⟨printInt_plain min, printInt_plain max, printInt_plain step⟩)
  refine hline.trans ?_
  rw [parseNamed_randint_suffix, hops]
  simp [readRandint, readInt_printInt, Except.map]

/-- Settles O53: each line is its name and its operands, and each operand reads back as it is printed. -/
theorem parseOfPrint : Obligations.ParseOfPrint := by
  intro l hcmd
  cases l with
  | seed ws => exact parseLine_print_seed ws
  | nextword => rfl
  | getbits h n =>
    have hplain : (nameGetbits ++ suffixH h).all (fun c => !isBlank c && c != ';') = true := by cases h <;> decide
    exact parseLine_width (parseNamed_getbits_suffix h) (by simp [nameGetbits]) (name_plain hplain)
      (printNat_ne_nil n) (printNat_plain n) (readNat_printNat n)
  | randint h min max step => exact parseLine_print_randint h min max step
  | status => rfl
  | cmd w =>
    exact parseLine_width parseNamed_cmd (by decide) (name_plain (by decide)) (List.cons_ne_nil _ _)
      (printHexWord_plain w) (readNat_printHexWord w (hcmd w rfl))

end Sys2Proof.Machine
end

section
/-! PROOFS of the family 40_generator.md: the generator step (R72 to R76), `SEED` (R77 to R81) and `NEXTWORD` (R82). -/

namespace Sys2Proof.Machine

/-! ### One generator step (R72, R73) -/

/-- Settles O14: the recurrence's two new words are those found at the two written indices. -/
theorem generatorStepFollowsTheRecurrence : Obligations.GeneratorStepFollowsTheRecurrence := fun e =>
  ⟨advance_old e, advance_new e, advance_IDX e, rfl⟩

/-- Settles O15: the old and the new index differ, and the step writes no word but theirs. -/
theorem generatorStepWritesTwoWords : Obligations.GeneratorStepWritesTwoWords := fun e =>
  ⟨(prevIndex_ne e.IDX).symm, advance_other e, advance_seeded e, advance_fault e, rfl⟩

/-! ### The index (R74) -/

/-- Each of `m` generator steps adds 31 to the index, modulo 32 (R74). -/
theorem advance_iterate_IDX_val (e : Engine) (m : Nat) :
    (Engine.advance^[m] e).IDX.val = (e.IDX.val + 31 * m) % 32 := by
  induction m with
  | zero => exact (Nat.mod_eq_of_lt e.IDX.isLt).symm
  | succ m ih => rw [Function.iterate_succ_apply', advance_IDX, prevIndex_val, ih]; omega

/-- Settles O16: 32 steps add a multiple of 32. -/
theorem indexMovesDownCircularly : Obligations.IndexMovesDownCircularly := by
  intro e m
  refine ⟨advance_iterate_IDX_val e m, Fin.ext ?_⟩
  rw [advance_iterate_IDX_val, Nat.add_mul_mod_self_right, Nat.mod_eq_of_lt e.IDX.isLt]

/-! ### The transition loses nothing (R76) -/

/-- Settles O17: a step to all zeros starts from all zeros. -/
theorem nonzeroStateIsPreserved : Obligations.NonzeroStateIsPreserved := fun _ hS => advance_nonzero hS

/-- An engine is its 32 words, its index and its flags (10_state.md R17). -/
theorem engine_ext {e e' : Engine} (hS : ∀ k : Fin 32, e.S[k] = e'.S[k]) (hIDX : e.IDX = e'.IDX)
    (hseeded : e.seeded = e'.seeded) (hfault : e.fault = e'.fault) : e = e' := by
  rw [Engine.mk.injEq]
  exact ⟨Vector.ext fun k hk => hS ⟨k, hk⟩, hIDX, hseeded, hfault⟩

theorem prevIndex_injective : Function.Injective prevIndex := add_left_injective Params.back

/-- The engine whose words are the exclusive or of those of `e` and `e'`. -/
def Engine.difference (e e' : Engine) : Engine := { e with S := Vector.ofFn fun k => e.S[k] ^^^ e'.S[k] }

theorem difference_IDX (e e' : Engine) : (e.difference e').IDX = e.IDX := by
  simp only [Engine.difference]

theorem difference_word (e e' : Engine) (k : Fin 32) : (e.difference e').S[k] = e.S[k] ^^^ e'.S[k] := by
  rw [Engine.difference, Fin.getElem_fin, Vector.getElem_ofFn]

/-- At one index, engines that step to the same words hold the same words: the step is linear, and only zero words step
to zero words. -/
theorem word_eq_of_advance_word_eq {e e' : Engine} (hIDX : e'.IDX = e.IDX)
    (hS : ∀ k : Fin 32, e.advance.S[k] = e'.advance.S[k]) (k : Fin 32) : e.S[k] = e'.S[k] := by
  have hstep := (generatorTransitionIsLinear e e' (e.difference e') (difference_IDX e e').symm
    (hIDX.trans (difference_IDX e e').symm) (difference_word e e')).1
  have hzero : ∀ k : Fin 32, (e.difference e').advance.S[k] = 0 := fun k => by
    rw [hstep, hS, BitVec.xor_self]; rfl
  exact BitVec.xor_eq_zero_iff.mp ((difference_word e e' k).symm.trans (eq_zero_of_advance_eq_zero hzero k))

theorem advance_injective : Function.Injective Engine.advance := by
  intro e e' h
  have hIDX : e.IDX = e'.IDX := prevIndex_injective (congrArg Engine.IDX h)
  refine engine_ext (word_eq_of_advance_word_eq hIDX.symm fun k => by rw [h]) hIDX ?_ ?_
  · rw [← advance_seeded e, h, advance_seeded]
  · rw [← advance_fault e, h, advance_fault]

/-- There are finitely many engines: each field has finitely many values (10_state.md R17). -/
theorem engine_finite : Finite Engine :=
  Finite.of_injective (fun e : Engine => ((fun k : Fin 32 => e.S[k]), e.IDX, e.seeded, e.fault)) fun e e' h => by
    simp only [Prod.mk.injEq] at h
    obtain ⟨hS, hIDX, hseeded, hfault⟩ := h
    exact engine_ext (congrFun hS) hIDX hseeded hfault

/-- Settles O18: the step is one-to-one on a finite set. -/
theorem generatorTransitionIsInvertible : Obligations.GeneratorTransitionIsInvertible :=
  have := engine_finite
  Finite.injective_iff_bijective.mp advance_injective

/-! ### Loading a seed (R77 to R81) -/

/-- An accepted `SEED`: every check of R77 passes, and the words are loaded. -/
theorem execSeed_accepted {s : State} (hf : s.engine.fault = 0x00) (hl : s.presented.seed.length = 32)
    (hw : ∃ w ∈ s.presented.seed, w ≠ 0) :
    exec (.seed 32) s = .next (s.answered (s.engine.seedWith s.presented.seed) 0x00 0) := by
  rw [exec, execSeed, unlessFaulted_clear hf, if_neg (not_not_intro rfl), if_neg (not_not_intro hl),
    if_neg (Bool.eq_false_iff.mp (allZero_eq_false.mpr hw))]
  rfl

/-- Settles O21: the engine an accepted `SEED` leaves, field by field. -/
theorem seedLoadsTheWords : Obligations.SeedLoadsTheWords := by
  intro s hf hl hw
  refine ⟨_, execSeed_accepted hf hl hw, fun j => ?_, seedWith_IDX _ _, seedWith_seeded _ _, seedWith_fault _ _⟩
  have hj : j.val < s.presented.seed.length := j.isLt.trans_eq hl.symm
  rw [seedWith_S, Fin.getElem_fin, seedVector_get _ _ j.isLt, List.getD_eq_getElem _ 0 hj, List.getElem?_eq_getElem hj]

/-- Settles O22: the length is right, and the all-zero check rejects. -/
theorem seedOfZeroWordsIsRejected : Obligations.SeedOfZeroWordsIsRejected := by
  intro s hf hzero
  have hl : s.presented.seed.length = 32 := by rw [hzero, List.length_replicate]
  have hz : allZero s.presented.seed = true := by rw [hzero]; rfl
  rw [exec, execSeed, unlessFaulted_clear hf, if_neg (not_not_intro rfl), if_neg (not_not_intro hl), if_pos hz]
  rfl

/-- Settles O23: the length fault comes before the list is looked at. -/
theorem seedLengthFault : Obligations.SeedLengthFault := by
  intro s l hf hl
  rw [exec, execSeed, unlessFaulted_clear hf, if_pos hl]
  rfl

/-- A step that accepts the `SEED` at the port (R77). -/
theorem step_seed_accepted {s : State} {c : Command} {rest : List HostMove} (hport : s.inputs = .command c :: rest)
    (hd : decode c.word = .legal (.seed 32)) (hf : s.engine.fault = 0x00) (hl : c.seed.length = 32)
    (hw : ∃ w ∈ c.seed, w ≠ 0) : step s = .next (s.answered (s.engine.seedWith c.seed) 0x00 0) := by
  obtain ⟨hrun, hp⟩ := stepRunsTheDecodedInstruction s c rest (.seed 32) hport hd
  subst hp
  exact hrun.trans (execSeed_accepted hf hl hw)

/-- A load keeps nothing of the engine before it but `FAULT`: the old `S` and `IDX` are discarded (R81). -/
theorem seedWith_eq_of_fault_eq {e e' : Engine} (h : e.fault = e'.fault) (ws : List Word) :
    e.seedWith ws = e'.seedWith ws := by
  rw [Engine.seedWith, Engine.seedWith, h]

/-- The host's side after a command is answered depends only on the host's side before it. -/
theorem answered_eq_of_port_eq {s s' : State} (hi : s.inputs = s'.inputs) (hr : s.responses = s'.responses)
    (e : Engine) (code : Code) (r : Dword) : s.answered e code r = s'.answered e code r := by
  simp only [State.answered, State.inputsAfterCommand, hi, hr]

/-- Settles O51: after the `SEED` the two machines are one machine. -/
theorem reseedRestartsTheStream : Obligations.ReseedRestartsTheStream := by
  intro s s' c rest k hf hf' hport hport' hresp hword hl hw
  have hd : decode c.word = .legal (.seed 32) := hword ▸ decode_seedWord
  have hsame : s.answered (s.engine.seedWith c.seed) 0x00 0 = s'.answered (s'.engine.seedWith c.seed) 0x00 0 := by
    rw [seedWith_eq_of_fault_eq (hf.trans hf'.symm), answered_eq_of_port_eq (hport.trans hport'.symm) hresp]
  have hstep := step_seed_accepted hport hd hf hl hw
  have hstep' := step_seed_accepted hport' hd hf' hl hw
  rw [run_succ_of_next Sys2Proof.core hstep, run_succ_of_next Sys2Proof.core hstep', hsame]

/-! ### Drawing a word (R82) -/

/-- Settles O20: the faulted check, then check 4c, then the draw. -/
theorem nextwordReturnsTheNextWord : Obligations.NextwordReturnsTheNextWord := by
  intro s
  refine ⟨fun hf hs => ?_, fun hf hs => ?_, fun hf => ?_⟩
  · rw [exec, execNextword, unlessFaulted_clear hf, whenSeeded_true hs, BitVec.ofNat_toNat]
    rfl
  · rw [exec, execNextword, unlessFaulted_clear hf, whenSeeded_false hs]
  · rw [exec, execNextword, unlessFaulted_faulted hf]

end Sys2Proof.Machine
end

section
/-! PROOFS of the family 41_bit_extractor.md: `GETBITS`, its width check and its two compositions (R85 to R91). -/

namespace Sys2Proof.Machine

/-! ### The command's answers (R86, R90) -/

theorem badWidth_eq_true {n : Nat} : badWidth n = true ↔ n < 1 ∨ 53 < n := decide_eq_true_iff

theorem badWidth_eq_false {n : Nat} : badWidth n = false ↔ 1 ≤ n ∧ n ≤ 53 := by
  rw [Bool.eq_false_iff, Ne, badWidth_eq_true, not_or, not_lt, not_lt]

theorem bitsHigh_eq_true {n : Nat} {h : Bool} : bitsHigh n h = true ↔ h = true ∨ 32 < n := by
  rw [bitsHigh, Bool.or_eq_true, decide_eq_true_iff]

theorem bitsHigh_standard {n : Nat} (hn : n ≤ 32) : bitsHigh n false = false := decide_eq_false (Nat.not_lt.mpr hn)

/-- An accepted `GETBITS`: every check of R90 passes, and the primitive's value is the result. -/
theorem execGetbits_accepted {s : State} {n : Nat} (h : Bool) (hf : s.engine.fault = 0x00)
    (hs : s.engine.seeded = true) (hn : 1 ≤ n ∧ n ≤ 53) :
    exec (.getbits n h) s = .next
      (s.answered (s.engine.getBits n (bitsHigh n h)).2 0x00 (s.engine.getBits n (bitsHigh n h)).1) := by
  rw [exec, execGetbits, unlessFaulted_clear hf, whenSeeded_true hs,
    if_neg (Bool.eq_false_iff.mp (badWidth_eq_false.mpr hn))]
  rfl

/-- Settles O27: the width check comes before the draw. -/
theorem getbitsRejectsTheWidth : Obligations.GetbitsRejectsTheWidth := by
  intro s n h hf hs hn
  rw [exec, execGetbits, unlessFaulted_clear hf, whenSeeded_true hs, if_pos (badWidth_eq_true.mpr hn)]
  rfl

/-- A `GETBITS` is rejected with a nonzero status, or its width is legal and it is answered with the primitive's value
(R86, R90). -/
theorem execGetbits_cases (s : State) (n : Nat) (h : Bool) :
    (∃ code, code ≠ 0x00 ∧ exec (.getbits n h) s = .next (s.answered s.engine code 0)) ∨
    (1 ≤ n ∧ n ≤ 53) ∧ exec (.getbits n h) s = .next
      (s.answered (s.engine.getBits n (bitsHigh n h)).2 0x00 (s.engine.getBits n (bitsHigh n h)).1) := by
  by_cases hf : s.engine.fault = 0x00
  case neg => exact .inl ⟨0xFF, by decide, unlessFaulted_faulted hf _⟩
  by_cases hs : s.engine.seeded = true
  case neg =>
    have hs : s.engine.seeded = false := Bool.eq_false_iff.mpr hs
    exact .inl ⟨0x02, by decide, (unseededDrawsAreRejected s n h hf hs).2.1⟩
  by_cases hn : n < 1 ∨ 53 < n
  case pos => exact .inl ⟨0x04, by decide, getbitsRejectsTheWidth s n h hf hs hn⟩
  case neg =>
    have hn : 1 ≤ n ∧ n ≤ 53 := by omega
    exact .inr ⟨hn, execGetbits_accepted h hf hs hn⟩

/-! ### The width of the result (R85) -/

theorem and_mask_lt (x : Dword) {n : Nat} (hn : n ≤ 64) : (x &&& mask n).toNat < 2 ^ n := by
  rw [BitVec.toNat_and, mask_toNat n hn]
  exact Nat.lt_of_le_pred (Nat.two_pow_pos n) Nat.and_le_right

/-- Both compositions end in the mask, so the primitive's value has width `n`. -/
theorem getBits_lt (e : Engine) {n : Nat} (high : Bool) (hn : n ≤ 64) : (e.getBits n high).1.toNat < 2 ^ n := by
  cases high with
  | false => exact and_mask_lt _ hn
  | true => exact and_mask_lt _ hn

/-- The response found behind the old ones is the one the command was answered with. -/
theorem response_of_answered {s t : State} {e : Engine} {code : Code} {x : Dword} {r : Response} {o : Result}
    (ho : o = .next (s.answered e code x)) (ht : o = .next t) (hr : t.responses = s.responses ++ [r]) :
    r = ⟨code, x⟩ := by
  obtain rfl := Host.Outcome.next.inj (ho.symm.trans ht)
  rw [answered_responses] at hr
  exact (List.singleton_inj.mp (List.append_cancel_left hr)).symm

/-- Settles O28: a rejection has a nonzero status, and the primitive's value is masked. -/
theorem getbitsResultHasWidthN : Obligations.GetbitsResultHasWidthN := by
  intro s t n h r ht hr hok
  obtain ⟨code, hcode, ho⟩ | ⟨⟨hlow, hhigh⟩, ho⟩ := execGetbits_cases s n h
  · obtain rfl := response_of_answered ho ht hr
    exact absurd hok hcode
  · obtain rfl := response_of_answered ho ht hr
    exact ⟨hlow, hhigh, getBits_lt s.engine _ (by omega)⟩

/-! ### The two compositions (R88, R89) -/

/-- Settles O25: the STANDARD primitive, whose 32-bit mask keeps the whole word. -/
theorem getbitsStandardKeepsTheLowBits : Obligations.GetbitsStandardKeepsTheLowBits := by
  intro s n hf hs hlow hhigh w
  refine ⟨w.toNat % 2 ^ n, ?_, rfl, fun hn => ?_⟩
  · rw [execGetbits_accepted false hf hs ⟨hlow, by omega⟩, bitsHigh_standard hhigh, getBits_standard _ _ (by omega)]
  · rw [hn, Nat.mod_eq_of_lt w.isLt]

/-- Up to 32 bits, the first word is discarded whole (R89). -/
theorem joined_mod_of_le (a b : Nat) {n : Nat} (hn : n ≤ 32) : (a * 2 ^ 32 + b) % 2 ^ n = b % 2 ^ n := by
  obtain ⟨q, hq⟩ := (Nat.pow_dvd_pow 2 hn).mul_left a
  rw [hq, Nat.mul_add_mod]

/-- From 33 bits on, the second word is kept whole below the low bits of the first (R89). -/
theorem joined_mod_of_ge (a : Nat) {b n : Nat} (hb : b < 2 ^ 32) (hn : 32 ≤ n) :
    (a * 2 ^ 32 + b) % 2 ^ n = a % 2 ^ (n - 32) * 2 ^ 32 + b := by
  have hrem : (a * 2 ^ 32 + b) % 2 ^ 32 = b := Nat.mul_add_mod_of_lt hb
  have hquot : (a * 2 ^ 32 + b) / 2 ^ 32 = a := by omega
  calc (a * 2 ^ 32 + b) % 2 ^ n = (a * 2 ^ 32 + b) % (2 ^ 32 * 2 ^ (n - 32)) := by
        rw [← Nat.pow_add, Nat.add_sub_cancel' hn]
    _ = b + 2 ^ 32 * (a % 2 ^ (n - 32)) := by rw [Nat.mod_mul, hrem, hquot]
    _ = a % 2 ^ (n - 32) * 2 ^ 32 + b := by rw [Nat.add_comm, Nat.mul_comm]

/-- Settles O26: the HIGH primitive, and its remainder on either side of 32 bits. -/
theorem getbitsHighJoinsTwoWords : Obligations.GetbitsHighJoinsTwoWords := by
  intro s n h hf hs hlow hhigh hprec w1 w2
  refine ⟨(w1.toNat * 2 ^ 32 + w2.toNat) % 2 ^ n, ?_, rfl, joined_mod_of_le _ _, fun hn => ?_⟩
  · rw [execGetbits_accepted h hf hs ⟨hlow, hhigh⟩, bitsHigh_eq_true.mpr hprec, getBits_high _ _ (by omega)]
  · exact joined_mod_of_ge _ w2.isLt (by omega)

end Sys2Proof.Machine
end

section
/-! PROOFS of the family 42_ranged_integer.md: `RANDINT`, its checks, its draw, its reduction and its bias (R96 to
R112). -/

namespace Sys2Proof.Machine

/-! ### The checks (R99, R100, R101) -/

section
variable {c : Command}

theorem badRange_eq_true : c.badRange = true ↔ c.b.toInt ≤ c.a.toInt ∨ c.c.toInt < 1 := decide_eq_true_iff

theorem badRange_eq_false : c.badRange = false ↔ c.a.toInt < c.b.toInt ∧ 1 ≤ c.c.toInt := by
  rw [Bool.eq_false_iff, Ne, badRange_eq_true, not_or, not_le, not_lt]

theorem overCeiling_eq_true : c.overCeiling = true ↔ 2 ^ 53 < c.b.toInt - c.a.toInt := decide_eq_true_iff

theorem overCeiling_eq_false : c.overCeiling = false ↔ c.b.toInt - c.a.toInt ≤ 2 ^ 53 := by
  rw [Bool.eq_false_iff, Ne, overCeiling_eq_true, not_lt]

theorem rangeHigh_eq_true {h : Bool} : c.rangeHigh h = true ↔ h = true ∨ 2 ^ 32 < c.b.toInt - c.a.toInt := by
  rw [Command.rangeHigh, Bool.or_eq_true, decide_eq_true_iff]
  rfl

theorem rangeHigh_eq_false {h : Bool} : c.rangeHigh h = false ↔ h = false ∧ c.b.toInt - c.a.toInt ≤ 2 ^ 32 := by
  rw [Bool.eq_false_iff, Ne, rangeHigh_eq_true, not_or, Bool.not_eq_true, not_lt]

end

/-! ### The draw (R102) -/

/-- A STANDARD draw is one whole word. -/
theorem draw_standard (e : Engine) : e.draw false = (BitVec.ofNat 64 e.nextWord.1.toNat, e.nextWord.2) := by
  refine (getBits_standard e 32 (by decide)).trans ?_
  rw [Nat.mod_eq_of_lt e.nextWord.1.isLt]

/-- A HIGH draw is the low 53 bits of two joined words. -/
theorem draw_high (e : Engine) : e.draw true = (BitVec.ofNat 64
    ((e.nextWord.1.toNat * 2 ^ 32 + e.nextWord.2.nextWord.1.toNat) % 2 ^ 53), e.nextWord.2.nextWord.2) :=
  getBits_high e 53 (by decide)

theorem draw_fault (e : Engine) (high : Bool) : (e.draw high).2.fault = e.fault := (getBits_flags e _ high).2

/-! ### The reduction (R98, R103) -/

section
variable {c : Command}

theorem span_eq (c : Command) : c.span = c.b.toInt - c.a.toInt := rfl

theorem stepCount_eq (c : Command) : c.stepCount = ceilDiv (c.b.toInt - c.a.toInt) c.c.toInt := rfl

theorem reduce_eq (c : Command) (r : Dword) : c.reduce r = c.a.toInt + c.c.toInt * ((r.toNat : Int) % c.stepCount) := rfl

theorem stepCount_eq_ceil (hc : 1 ≤ c.c.toInt) :
    c.stepCount = ⌈((c.b.toInt - c.a.toInt : Int) : ℚ) / (c.c.toInt : ℚ)⌉ := ceilDiv_eq_ceil _ _ hc

/-- The reduction of a draw given as a number (R103). -/
theorem reduce_ofNat (c : Command) {r : Nat} (hr : r < 2 ^ 64) :
    c.reduce (BitVec.ofNat 64 r) = c.a.toInt + c.c.toInt * ((r : Int) % c.stepCount) := by
  rw [reduce_eq, BitVec.toNat_ofNat, Nat.mod_eq_of_lt hr]

/-- Every reduced draw lies on the step lattice (R106). -/
theorem reduce_sub_min_emod_step (c : Command) (r : Dword) : (c.reduce r - c.a.toInt) % c.c.toInt = 0 := by
  rw [reduce_eq, add_sub_cancel_left, Int.mul_emod_right]

/-- A one-point range has one grid point (R109). -/
theorem stepCount_eq_one (hab : c.a.toInt < c.b.toInt) (hc : 1 ≤ c.c.toInt)
    (hone : c.b.toInt - c.a.toInt = 1 ∨ c.b.toInt - c.a.toInt ≤ c.c.toInt) : c.stepCount = 1 := by
  obtain ⟨hpos, hlast, hle⟩ := ceilDiv_bounds (c.b.toInt - c.a.toInt) c.c.toInt (by omega) hc
  rw [← stepCount_eq] at hpos hlast hle
  rcases hone with hone | hone
  · omega
  · have : c.stepCount - 1 < 1 := lt_of_mul_lt_mul_left (by omega) (by omega : 0 ≤ c.c.toInt)
    omega

theorem reduce_of_stepCount_eq_one (hk : c.stepCount = 1) (r : Dword) : c.reduce r = c.a.toInt := by
  rw [reduce_eq, hk, Int.emod_one, mul_zero, add_zero]

end

/-! ### The command's answers (R104) -/

section
variable {s : State} {h : Bool} (hf : s.engine.fault = 0x00) (hs : s.engine.seeded = true)
include hf hs

/-- An accepted `RANDINT`: every check of R104 passes, and the reduced draw is the result. -/
theorem execRandint_accepted (hbad : s.presented.badRange = false) (hover : s.presented.overCeiling = false) :
    exec (.randint h) s = .next (s.answered (s.engine.draw (s.presented.rangeHigh h)).2 0x00
      (u64 (s.presented.reduce (s.engine.draw (s.presented.rangeHigh h)).1))) := by
  rw [exec, execRandint, unlessFaulted_clear hf, whenSeeded_true hs, if_neg (Bool.eq_false_iff.mp hbad),
    if_neg (Bool.eq_false_iff.mp hover)]
  rfl

theorem execRandint_badRange (hbad : s.presented.badRange = true) :
    exec (.randint h) s = .next (s.answered s.engine 0x05 0) := by
  rw [exec, execRandint, unlessFaulted_clear hf, whenSeeded_true hs, if_pos hbad]
  rfl

theorem execRandint_overCeiling (hbad : s.presented.badRange = false) (hover : s.presented.overCeiling = true) :
    exec (.randint h) s = .next (s.answered { s.engine with fault := 0x81 } 0x81 0) := by
  rw [exec, execRandint, unlessFaulted_clear hf, whenSeeded_true hs, if_neg (Bool.eq_false_iff.mp hbad), if_pos hover]
  rfl

/-- An accepted STANDARD `RANDINT` reduces one whole word. -/
theorem execRandint_standard (hbad : s.presented.badRange = false) (hover : s.presented.overCeiling = false)
    (hprec : s.presented.rangeHigh h = false) :
    exec (.randint h) s = .next (s.answered s.engine.nextWord.2 0x00 (BitVec.ofInt 64 (s.presented.a.toInt +
      s.presented.c.toInt * ((s.engine.nextWord.1.toNat : Int) % s.presented.stepCount)))) := by
  have hr : s.engine.nextWord.1.toNat < 2 ^ 64 := s.engine.nextWord.1.isLt.trans (by decide)
  rw [execRandint_accepted hf hs hbad hover, hprec, draw_standard, reduce_ofNat _ hr, u64]

/-- An accepted HIGH `RANDINT` reduces the low 53 bits of two joined words. -/
theorem execRandint_high (hbad : s.presented.badRange = false) (hover : s.presented.overCeiling = false)
    (hprec : s.presented.rangeHigh h = true) :
    exec (.randint h) s = .next (s.answered s.engine.nextWord.2.nextWord.2 0x00 (BitVec.ofInt 64 (s.presented.a.toInt +
      s.presented.c.toInt * ((((s.engine.nextWord.1.toNat * 2 ^ 32 + s.engine.nextWord.2.nextWord.1.toNat) % 2 ^ 53 :
        Nat) : Int) % s.presented.stepCount)))) := by
  rw [execRandint_accepted hf hs hbad hover, hprec, draw_high, reduce_ofNat _ (by omega), u64]

end

/-- A `RANDINT` is answered with a nonzero status, or its range is legal and it is answered with the reduced draw
(R104). -/
theorem execRandint_cases (s : State) (h : Bool) :
    (∃ e code, code ≠ 0x00 ∧ exec (.randint h) s = .next (s.answered e code 0)) ∨
    s.presented.badRange = false ∧ exec (.randint h) s = .next
      (s.answered (s.engine.draw (s.presented.rangeHigh h)).2 0x00
        (u64 (s.presented.reduce (s.engine.draw (s.presented.rangeHigh h)).1))) := by
  by_cases hf : s.engine.fault = 0x00
  case neg => exact .inl ⟨_, 0xFF, by decide, unlessFaulted_faulted hf _⟩
  cases hs : s.engine.seeded with
  | false => exact .inl ⟨_, 0x02, by decide, (unseededDrawsAreRejected s 0 h hf hs).2.2⟩
  | true =>
    cases hbad : s.presented.badRange with
    | true => exact .inl ⟨_, 0x05, by decide, execRandint_badRange hf hs hbad⟩
    | false =>
      cases hover : s.presented.overCeiling with
      | true => exact .inl ⟨_, 0x81, by decide, execRandint_overCeiling hf hs hbad hover⟩
      | false => exact .inr ⟨rfl, execRandint_accepted hf hs hbad hover⟩

/-! ### The checks settled (R100, R101) -/

/-- Settles O31: the range check comes before the draw. -/
theorem randintRejectsTheRange : Obligations.RandintRejectsTheRange := fun _ _ hf hs hbad =>
  execRandint_badRange hf hs (badRange_eq_true.mpr hbad)

/-- Settles O32: the ceiling itself passes the check, and the draw leaves `FAULT` alone. -/
theorem randintCeilingFault : Obligations.RandintCeilingFault := by
  intro s h hf hs hstep
  refine ⟨fun hspan => ?_, fun hspan => ?_⟩
  · exact execRandint_overCeiling hf hs (badRange_eq_false.mpr ⟨by omega, hstep⟩) (overCeiling_eq_true.mpr hspan)
  · refine ⟨_, _, execRandint_accepted hf hs (badRange_eq_false.mpr ⟨by omega, hstep⟩)
      (overCeiling_eq_false.mpr hspan.le), ?_⟩
    rw [draw_fault, hf]

/-! ### The result (R96, R103, R109) -/

/-- Settles O29: the two precisions, with the step count read as a ceiling. -/
theorem randintReducesTheDraw : Obligations.RandintReducesTheDraw := by
  intro s h min max step span k w1 w2 hf hs hrange hstep hspan
  have hk : s.presented.stepCount = k := stepCount_eq_ceil hstep
  have hbad := badRange_eq_false.mpr ⟨hrange, hstep⟩
  have hover := overCeiling_eq_false.mpr hspan
  refine ⟨fun hprec => ?_, fun hprec => ?_⟩
  · rw [execRandint_standard hf hs hbad hover (rangeHigh_eq_false.mpr hprec), hk]
  · rw [execRandint_high hf hs hbad hover (rangeHigh_eq_true.mpr hprec), hk]

/-- Settles O30: the only answer with status 0 is a reduced draw, which its 64-bit pattern keeps. -/
theorem randintResultIsInRange : Obligations.RandintResultIsInRange := by
  intro s t h r ht hr hok
  obtain ⟨e, code, hcode, ho⟩ | ⟨hbad, ho⟩ := execRandint_cases s h
  · obtain rfl := response_of_answered ho ht hr
    exact absurd hok hcode
  · obtain rfl := response_of_answered ho ht hr
    obtain ⟨hrange, hstep⟩ := badRange_eq_false.mp hbad
    obtain ⟨hlow, hhigh, hkeeps⟩ := reduce_bounds s.presented
      (s.engine.draw (s.presented.rangeHigh h)).1 hrange hstep
    rw [hkeeps]
    exact ⟨hlow, hhigh, reduce_sub_min_emod_step _ _⟩

/-- Settles O33: every remainder by a step count of 1 is 0, and the draw is made all the same. -/
theorem randintOnePointStillDraws : Obligations.RandintOnePointStillDraws := by
  intro s h hf hs hrange hstep hspan hone
  have hanswer : exec (.randint h) s =
      .next (s.answered (s.engine.draw (s.presented.rangeHigh h)).2 0x00 s.presented.a) := by
    rw [execRandint_accepted hf hs (badRange_eq_false.mpr ⟨hrange, hstep⟩) (overCeiling_eq_false.mpr hspan),
      reduce_of_stepCount_eq_one (stepCount_eq_one hrange hstep hone), u64, BitVec.ofInt_toInt]
  refine ⟨fun hprec => ?_, fun hprec => ?_⟩
  · rw [hanswer, rangeHigh_eq_false.mpr hprec]
    rfl
  · rw [hanswer, rangeHigh_eq_true.mpr hprec]
    rfl

/-! ### The default range (R110) -/

/-- Settles O34: with `k = 2^32` the remainder keeps the whole word; the checks before the draw are `NEXTWORD`'s. -/
theorem randintDefaultRangeIsNextword : Obligations.RandintDefaultRangeIsNextword := by
  intro s ha hb hc
  have hmin : s.presented.a.toInt = 0 := by rw [ha]; rfl
  have hmax : s.presented.b.toInt = 2 ^ 32 := by rw [hb]; rfl
  have hstep : s.presented.c.toInt = 1 := by rw [hc]; rfl
  have hspan : s.presented.span = 2 ^ 32 := by rw [span_eq, hmax, hmin, sub_zero]
  have hk : s.presented.stepCount = 2 ^ 32 := by rw [stepCount_eq, hmax, hmin, hstep]; decide
  refine ⟨hspan, hk, ?_⟩
  by_cases hf : s.engine.fault = 0x00
  case neg => exact (unlessFaulted_faulted hf _).trans (unlessFaulted_faulted hf _).symm
  cases hs : s.engine.seeded with
  | false =>
    obtain ⟨hnextword, -, hrandint⟩ := unseededDrawsAreRejected s 0 false hf hs
    rw [hrandint, hnextword]
  | true =>
    have hrem : (s.engine.nextWord.1.toNat : Int) % 2 ^ 32 = s.engine.nextWord.1.toNat := by
      have := s.engine.nextWord.1.isLt
      omega
    rw [execRandint_standard hf hs (badRange_eq_false.mpr (by omega)) (overCeiling_eq_false.mpr (by omega))
        (rangeHigh_eq_false.mpr ⟨rfl, by omega⟩), (nextwordReturnsTheNextWord s).1 hf hs,
      hmin, hstep, hk, hrem, zero_add, one_mul, BitVec.ofInt_natCast]

/-! ### The modulo bias (R107) -/

/-- A draw hits grid point `x` when it is congruent to `x` modulo the step count (R103). -/
theorem reduce_eq_iff_modEq {c : Command} {r x : Nat} (hr : r < 2 ^ 64) (hc : 1 ≤ c.c.toInt)
    (hx : (x : Int) < c.stepCount) :
    c.reduce (BitVec.ofNat 64 r) = c.a.toInt + c.c.toInt * x ↔ r ≡ x [MOD c.stepCount.toNat] := by
  obtain ⟨k, hk⟩ := Int.eq_ofNat_of_zero_le (by omega : 0 ≤ c.stepCount)
  have hxk : x % k = x := Nat.mod_eq_of_lt (by omega)
  rw [reduce_ofNat c hr, add_right_inj, mul_right_inj' (by omega), hk, Int.toNat_natCast, Nat.ModEq, hxk]
  norm_cast

/-- The draws below `2 ^ B` that hit grid point `x` are a residue class, so their number is known (R107). -/
theorem ncard_draws_hitting {c : Command} {B x : Nat} (hB : B ≤ 64) (hc : 1 ≤ c.c.toInt)
    (hx : (x : Int) < c.stepCount) :
    {r : Nat | r < 2 ^ B ∧ c.reduce (BitVec.ofNat 64 r) = c.a.toInt + c.c.toInt * x}.ncard =
      2 ^ B / c.stepCount.toNat + (if x < 2 ^ B % c.stepCount.toNat then 1 else 0) := by
  have hclass : {r : Nat | r < 2 ^ B ∧ c.reduce (BitVec.ofNat 64 r) = c.a.toInt + c.c.toInt * x} =
      ↑{r ∈ Finset.range (2 ^ B) | r ≡ x [MOD c.stepCount.toNat]} := by
    ext r
    rw [Finset.coe_filter, Set.mem_ofPred_eq, Set.mem_ofPred_eq, Finset.mem_range]
    exact and_congr_right fun hr => reduce_eq_iff_modEq (hr.trans_le (Nat.pow_le_pow_right (by decide) hB)) hc hx
  rw [hclass, Set.ncard_coe_finset, ← Nat.count_eq_card_filter_range, Nat.count_modEq_card _ (by omega),
    Nat.mod_eq_of_lt (by omega : x < c.stepCount.toNat)]

/-- Settles O35: for `randInt(1,7)`, `2^32 = 6 * 715827882 + 4`. -/
theorem randintBias : Obligations.RandintBias := by
  refine ⟨fun c B x hB _ hc _ hx => ncard_draws_hitting (by omega) hc hx, fun c v ha hb hc hlow hhigh => ?_⟩
  obtain ⟨x, rfl⟩ : ∃ x : Nat, v = 1 + 1 * x := ⟨(v - 1).toNat, by omega⟩
  have hmin : c.a.toInt = 1 := by rw [ha]; rfl
  have hmax : c.b.toInt = 7 := by rw [hb]; rfl
  have hstep : c.c.toInt = 1 := by rw [hc]; rfl
  have hk : c.stepCount = 6 := by rw [stepCount_eq, hmax, hmin, hstep]; decide
  have hweight := ncard_draws_hitting (c := c) (B := 32) (x := x) (by decide) (by omega) (by omega)
  have hquot : 2 ^ 32 / Int.toNat 6 = 715827882 := by decide
  have hrem : 2 ^ 32 % Int.toNat 6 = 4 := by decide
  rw [hmin, hstep, hk, hquot, hrem] at hweight
  rw [hweight]
  split_ifs <;> omega

end Sys2Proof.Machine
end

section
/-! PROOFS of the family 43_status.md: `STATUS` commands and the run that follows them (R115). -/

namespace Sys2Proof.Machine

/-! ### Responses already given are never read (10_state.md R17, R25) -/

/-- The machine `s` with the responses `past` given before its own. -/
def State.withPast (past : List Response) (s : State) : State := { s with responses := past ++ s.responses }

/-- An outcome with the responses `past` given before those of its next state. -/
def Result.withPast (past : List Response) : Result → Result
  | .next t => .next (t.withPast past)
  | .fault f => .fault f
  | .refused x => .refused x

section
variable (past : List Response) (s : State)

@[simp] theorem withPast_engine : (s.withPast past).engine = s.engine := rfl

@[simp] theorem withPast_inputs : (s.withPast past).inputs = s.inputs := rfl

@[simp] theorem withPast_responses : (s.withPast past).responses = past ++ s.responses := rfl

@[simp] theorem withPast_presented : (s.withPast past).presented = s.presented := rfl

@[simp] theorem Result.withPast_refused (x : Refusal) : Result.withPast past (.refused x) = .refused x := rfl

theorem respond_withPast (e : Engine) (st : Status) (r : Dword) :
    (s.respond e st r).withPast past = (s.withPast past).respond e st r :=
  congrArg (State.mk e s.inputsAfterCommand) (List.append_assoc past s.responses _).symm

theorem succeed_withPast (e : Engine) (r : Dword) :
    Result.withPast past (succeed s e r) = succeed (s.withPast past) e r :=
  congrArg Host.Outcome.next (respond_withPast past s e .ok r)

theorem raiseError_withPast (st : Status) :
    Result.withPast past (raiseError s st) = raiseError (s.withPast past) st :=
  congrArg Host.Outcome.next (respond_withPast past s s.engine st 0)

theorem raiseFault_withPast (st : Status) :
    Result.withPast past (raiseFault s st) = raiseFault (s.withPast past) st :=
  congrArg Host.Outcome.next (respond_withPast past s _ st 0)

theorem unlessFaulted_withPast (k : Result) :
    Result.withPast past (unlessFaulted s k) = unlessFaulted (s.withPast past) (Result.withPast past k) := by
  by_cases hf : s.engine.fault = 0x00
  · rw [unlessFaulted_clear hf, unlessFaulted_clear (s := s.withPast past) hf]
  · rw [unlessFaulted_faulted hf, unlessFaulted_faulted (s := s.withPast past) hf]
    exact raiseError_withPast past s .faulted

theorem whenSeeded_withPast (k : Result) :
    Result.withPast past (whenSeeded s k) = whenSeeded (s.withPast past) (Result.withPast past k) := by
  cases hs : s.engine.seeded
  · rw [whenSeeded_false hs, whenSeeded_false (s := s.withPast past) hs]
    exact raiseError_withPast past s .notSeeded
  · rw [whenSeeded_true hs, whenSeeded_true (s := s.withPast past) hs]

theorem execSeed_withPast (l : Nat) : Result.withPast past (execSeed l s) = execSeed l (s.withPast past) := by
  simp only [execSeed, unlessFaulted_withPast, apply_ite (Result.withPast past), raiseFault_withPast,
    Result.withPast_refused, raiseError_withPast, succeed_withPast, withPast_presented, withPast_engine]
  rfl

theorem execGetbits_withPast (n : Nat) (h : Bool) :
    Result.withPast past (execGetbits n h s) = execGetbits n h (s.withPast past) := by
  simp only [execGetbits, unlessFaulted_withPast, whenSeeded_withPast, apply_ite (Result.withPast past),
    raiseError_withPast, succeed_withPast, withPast_engine]

theorem execRandint_withPast (h : Bool) :
    Result.withPast past (execRandint h s) = execRandint h (s.withPast past) := by
  simp only [execRandint, unlessFaulted_withPast, whenSeeded_withPast, apply_ite (Result.withPast past),
    raiseError_withPast, raiseFault_withPast, succeed_withPast, withPast_presented, withPast_engine]
  rfl

theorem exec_withPast (i : Instr) : Result.withPast past (exec i s) = exec i (s.withPast past) := by
  cases i with
  | seed l => exact execSeed_withPast past s l
  | nextword =>
    simp only [exec, execNextword, unlessFaulted_withPast, whenSeeded_withPast, succeed_withPast, withPast_engine]
  | getbits n h => exact execGetbits_withPast past s n h
  | randint h => exact execRandint_withPast past s h
  | status => exact succeed_withPast past s s.engine s.engine.statusWord

theorem runCommand_withPast (c : Command) :
    Result.withPast past (s.runCommand c) = (s.withPast past).runCommand c := by
  cases hd : decode c.word with
  | legal i => rw [runCommand_legal s hd, runCommand_legal _ hd, exec_withPast]
  | illegal why =>
    rw [runCommand_illegal s hd, runCommand_illegal _ hd, rejectIllegal, rejectIllegal, unlessFaulted_withPast,
      raiseError_withPast]

/-- A step reads no response already given: it only adds its own. -/
theorem step_withPast : Result.withPast past (step s) = step (s.withPast past) := by
  match hport : s.inputs with
  | [] => rw [step_empty hport, step_empty (s := s.withPast past) hport]; rfl
  | .reset words :: rest => rw [step_reset hport, step_reset (s := s.withPast past) hport]; rfl
  | .command c :: rest =>
    rw [step_command hport, step_command (s := s.withPast past) hport, runCommand_withPast]

/-- Nor does a run. -/
theorem run_withPast (k : Nat) :
    Result.withPast past (Sys2Proof.core.run k s) = Sys2Proof.core.run k (s.withPast past) := by
  induction k generalizing s with
  | zero => rfl
  | succ k ih =>
    have hpast := step_withPast past s
    match hs : step s with
    | .next t =>
      rw [hs] at hpast
      rw [run_succ_of_next Sys2Proof.core hs, run_succ_of_next Sys2Proof.core hpast.symm, ih]
    | .refused x =>
      rw [hs] at hpast
      rw [run_succ_of_refused Sys2Proof.core hs, run_succ_of_refused Sys2Proof.core hpast.symm]
      rfl

end

/-- A run that starts with the responses `past` is the run that starts with none, with `past` before its responses. -/
theorem run_with_responses (k : Nat) (e : Engine) (inputs : List HostMove) (past : List Response) :
    Sys2Proof.core.run k (State.mk e inputs past) =
      Result.withPast past (Sys2Proof.core.run k (State.mk e inputs [])) := by
  rw [run_withPast, State.withPast, List.append_nil]

/-! ### `STATUS` commands before other moves (R115) -/

theorem decode_statusCommand : decode 0x00000005 = .legal .status := by decide

/-- A `STATUS` command at the port is answered with the status word, in every state (R113, R114). -/
theorem step_status {s : State} {c : Command} {rest : List HostMove} (hport : s.inputs = .command c :: rest)
    (hword : c.word = 0x00000005) : step s = .next (s.answered s.engine 0x00 s.engine.statusWord) :=
  (stepRunsTheDecodedInstruction s c rest .status hport (hword ▸ decode_statusCommand)).1

/-- The run that begins with `STATUS` commands is the run after them, each having left one status word. -/
theorem run_status_commands (k : Nat) (rest : List HostMove) (cs : List Command) {s : State}
    (hport : s.inputs = cs.map .command ++ rest) (hword : ∀ c ∈ cs, c.word = 0x00000005) :
    Sys2Proof.core.run (k + cs.length) s = Sys2Proof.core.run k { s with
      inputs := rest
      responses := s.responses ++ List.replicate cs.length ⟨0x00, s.engine.statusWord⟩ } := by
  induction cs generalizing s with
  | nil =>
    obtain ⟨e, inputs, responses⟩ := s
    obtain rfl : inputs = rest := hport
    rw [List.length_nil, List.replicate_zero, List.append_nil, Nat.add_zero]
  | cons c cs ih =>
    have hstep := step_status hport (hword c List.mem_cons_self)
    have hnext : (s.answered s.engine 0x00 s.engine.statusWord).inputs = cs.map .command ++ rest :=
      inputsAfterCommand_command hport
    rw [List.length_cons, ← Nat.add_assoc, run_succ_of_next Sys2Proof.core hstep,
      ih hnext fun d hd => hword d (List.mem_cons_of_mem c hd), answered_engine, answered_responses, List.append_assoc,
      List.replicate_succ, List.singleton_append]

/-- Settles O37: after the `STATUS` commands both runs are the run of `rest` from one engine, and differ only in the
responses given before. -/
theorem statusChangesNothingLater : Obligations.StatusChangesNothingLater := by
  intro s cs rest k hport hword
  have hwithout := run_with_responses k s.engine rest s.responses
  have hwith := (run_status_commands k rest cs hport hword).trans (run_with_responses k s.engine rest _)
  rw [hwithout, hwith]
  match Sys2Proof.core.run k (State.mk s.engine rest []) with
  | .next t =>
    refine ⟨fun u hu => ?_, fun x hx => (nomatch hx)⟩
    obtain rfl : t.withPast s.responses = u := Host.Outcome.next.inj hu
    exact ⟨_, t.responses, rfl, rfl, rfl, rfl, rfl⟩
  | .refused x => exact ⟨fun u hu => (nomatch hu), fun y hy => hy⟩

end Sys2Proof.Machine
end

section
/-! PROOFS of the family 60_exceptions.md: errors and faults (R120, R121), the faulted state (R122) and the check order
(R123). -/

namespace Sys2Proof.Machine

/-! ### The codes of errors and faults (R117, R118) -/

theorem Status.kind_eq_error_iff (st : Status) :
    st.kind = .error ↔ st.code ∈ ([0x01, 0x02, 0x03, 0x04, 0x05] : List Code) := by
  cases st <;> decide

theorem Status.kind_eq_fault_iff (st : Status) : st.kind = .fault ↔ st.code = 0x80 ∨ st.code = 0x81 := by
  cases st <;> decide

/-! ### What an answer's status tells of the engine (R120, R121) -/

section
variable {s : State} {c : Command} {e : Engine} {code : Code} {r : Dword}

/-- An answer with the code of an error is a rejection: a fault has another kind, every success the code 0 (R120). -/
theorem CommandAnswer.unchanged_of_error (ha : CommandAnswer s c e code r)
    (hcode : code ∈ ([0x01, 0x02, 0x03, 0x04, 0x05] : List Code)) : e = s.engine ∧ r = 0 := by
  cases ha with
  | rejected _ _ he _ hr => exact ⟨he, hr⟩
  | faulted st hk _ _ hc =>
    subst hc
    cases hk.symm.trans (st.kind_eq_error_iff.mpr hcode)
  | status _ _ hc => subst hc; exact absurd hcode (by decide)
  | loaded _ _ _ _ _ hc => subst hc; exact absurd hcode (by decide)
  | drawn _ _ _ _ hc => subst hc; exact absurd hcode (by decide)

/-- An answer with the code of a fault writes that code to `FAULT`: a rejection has another kind, every success the
code 0 (R121). -/
theorem CommandAnswer.writes_cause_of_fault (ha : CommandAnswer s c e code r) (hcode : code = 0x80 ∨ code = 0x81) :
    e = { s.engine with fault := code } ∧ s.engine.fault = 0x00 ∧ r = 0 := by
  cases ha with
  | rejected st hk _ hc =>
    subst hc
    have hfault := st.kind_eq_fault_iff.mpr hcode
    rcases hk with hk | hk <;> cases hk.symm.trans hfault
  | faulted _ _ hf he hc hr => exact ⟨hc ▸ he, hf, hr⟩
  | status _ _ hc => subst hc; exact absurd hcode (by decide)
  | loaded _ _ _ _ _ hc => subst hc; exact absurd hcode (by decide)
  | drawn _ _ _ _ hc => subst hc; exact absurd hcode (by decide)

/-- No command changes a faulted engine (R122). -/
theorem CommandAnswer.unchanged_of_faulted (ha : CommandAnswer s c e code r) (hf : s.engine.fault ≠ 0x00) :
    e = s.engine := by
  cases ha with
  | rejected _ _ he => exact he
  | status _ he => exact he
  | faulted _ _ hclear => exact absurd hclear hf
  | loaded _ hclear => exact absurd hclear hf
  | drawn _ hclear => exact absurd hclear hf

end

/-- The response a step leaves behind the old ones is the status and result of its command's answer. -/
theorem commandAnswer_of_step {s s' : State} {c : Command} {rest : List HostMove} {r : Response}
    (hport : s.inputs = .command c :: rest) (hs : step s = .next s') (hr : s'.responses = s.responses ++ [r]) :
    CommandAnswer s c s'.engine r.status r.result := by
  obtain ⟨e, code, x, rfl, ha⟩ := step_command_next hport hs
  obtain rfl := response_of_answered hs hs hr
  exact ha

/-- Settles O39, by the command's answer. -/
theorem errorsChangeNoState : Obligations.ErrorsChangeNoState := fun _ _ _ _ _ hport hs hr hcode =>
  (commandAnswer_of_step hport hs hr).unchanged_of_error hcode

/-- Settles O40, by the command's answer. -/
theorem faultsWriteOnlyTheCause : Obligations.FaultsWriteOnlyTheCause := fun _ _ _ _ _ hport hs hr hcode =>
  (commandAnswer_of_step hport hs hr).writes_cause_of_fault hcode

/-! ### The faulted state (R122) -/

/-- Every meaning but that of `STATUS` begins with the faulted check (R123). -/
theorem exec_faulted {s : State} {i : Instr} (hf : s.engine.fault ≠ 0x00) (hi : i ≠ .status) :
    exec i s = .next (s.answered s.engine 0xFF 0) := by
  cases i with
  | seed l => exact unlessFaulted_faulted hf _
  | nextword => exact unlessFaulted_faulted hf _
  | getbits n h => exact unlessFaulted_faulted hf _
  | randint h => exact unlessFaulted_faulted hf _
  | status => exact absurd rfl hi

/-- A faulted engine refuses every command but `STATUS`, a legal word or not (R122). -/
theorem step_faulted {s : State} {c : Command} {rest : List HostMove} (hport : s.inputs = .command c :: rest)
    (hf : s.engine.fault ≠ 0x00) (hword : c.word ≠ 0x00000005) : step s = .next (s.answered s.engine 0xFF 0) := by
  rw [step_command hport]
  cases hd : decode c.word with
  | legal i =>
    have hi : i ≠ .status := fun hi => hword (decode_eq_legal_iff.mp (hi ▸ hd)).2.symm
    rw [runCommand_legal s hd, exec_faulted hf hi]
  | illegal why => rw [runCommand_illegal s hd, rejectIllegal, unlessFaulted_faulted hf]

/-- Settles O41: a command is refused or reads the status, and of the host's moves only the reset input is left to
change the engine. -/
theorem faultedEngineAnswersOnlyStatus : Obligations.FaultedEngineAnswersOnlyStatus := by
  refine ⟨fun s c rest hport hf => ⟨step_faulted hport hf, step_status hport⟩, fun s s' hf hs hne => ?_⟩
  rcases step_next_cases hs with ⟨_, rfl⟩ | ⟨words, rest, hport, rfl⟩ | ⟨c, rest, e, code, r, _, rfl, ha⟩
  · exact absurd rfl hne
  · exact ⟨words, rest, hport, assertReset_engine s words rest⟩
  · exact absurd (ha.unchanged_of_faulted hf) hne

/-! ### The check order (R123) -/

section
variable {s : State} (hf : s.engine.fault = 0x00)
include hf

/-- The checks of `SEED` past the faulted one (R39, R77; the place of the refusal: log entry 5). -/
theorem exec_seed_checks (l : Nat) : exec (.seed l) s =
    if l ≠ 32 then .next (s.answered { s.engine with fault := 0x80 } 0x80 0)
    else if s.presented.seed.length ≠ 32 then .refused .seedListLength
    else if ∀ w ∈ s.presented.seed, w = 0 then .next (s.answered s.engine 0x03 0)
    else .next (s.answered (s.engine.seedWith s.presented.seed) 0x00 0) := by
  split_ifs with hL hlen hzero
  · exact seedLengthFault s l hf hL
  · obtain rfl := not_not.mp hL
    exact seedListOfAnotherLengthIsRefused s hf hlen
  · obtain rfl := not_not.mp hL
    exact seedOfZeroWordsIsRejected s hf (List.eq_replicate_iff.mpr ⟨not_not.mp hlen, hzero⟩)
  · obtain rfl := not_not.mp hL
    push Not at hlen hzero
    exact execSeed_accepted hf hlen hzero

/-- Check 4c of `NEXTWORD` (R82). -/
theorem exec_nextword_checks : exec .nextword s =
    if s.engine.seeded = false then .next (s.answered s.engine 0x02 0)
    else .next (s.answered s.engine.advance 0x00 (zext64 s.engine.nextWord.1)) := by
  split_ifs with hs
  · exact (unlessFaulted_clear hf _).trans (whenSeeded_false hs _)
  · exact (unlessFaulted_clear hf _).trans (whenSeeded_true (Bool.of_not_eq_false hs) _)

/-- The checks of `GETBITS` past the faulted one (R86, R90). -/
theorem exec_getbits_checks (n : Nat) (h : Bool) : exec (.getbits n h) s =
    if s.engine.seeded = false then .next (s.answered s.engine 0x02 0)
    else if n < 1 ∨ 53 < n then .next (s.answered s.engine 0x04 0)
    else .next (s.answered (s.engine.getBits n (bitsHigh n h)).2 0x00 (s.engine.getBits n (bitsHigh n h)).1) := by
  split_ifs with hs hn
  · exact (unlessFaulted_clear hf _).trans (whenSeeded_false hs _)
  · exact getbitsRejectsTheWidth s n h hf (Bool.of_not_eq_false hs) hn
  · exact execGetbits_accepted h hf (Bool.of_not_eq_false hs) (by omega)

/-- The checks of `RANDINT` past the faulted one (R100, R101, R104). -/
theorem exec_randint_checks (h : Bool) : exec (.randint h) s =
    if s.engine.seeded = false then .next (s.answered s.engine 0x02 0)
    else if s.presented.b.toInt ≤ s.presented.a.toInt ∨ s.presented.c.toInt < 1 then
      .next (s.answered s.engine 0x05 0)
    else if 2 ^ 53 < s.presented.b.toInt - s.presented.a.toInt then
      .next (s.answered { s.engine with fault := 0x81 } 0x81 0)
    else .next (s.answered (s.engine.draw (s.presented.rangeHigh h)).2 0x00
      (u64 (s.presented.reduce (s.engine.draw (s.presented.rangeHigh h)).1))) := by
  split_ifs with hs hbad hover
  · exact (unlessFaulted_clear hf _).trans (whenSeeded_false hs _)
  · exact randintRejectsTheRange s h hf (Bool.of_not_eq_false hs) hbad
  · exact execRandint_overCeiling hf (Bool.of_not_eq_false hs) (badRange_eq_false.mpr (by omega))
      (overCeiling_eq_true.mpr hover)
  · exact execRandint_accepted hf (Bool.of_not_eq_false hs) (badRange_eq_false.mpr (by omega))
      (overCeiling_eq_false.mpr (not_lt.mp hover))

end

/-- Settles O42: `STATUS`, then the faulted check, then the word's verdict, then the checks of its instruction. -/
theorem checksRunInOrder : Obligations.ChecksRunInOrder := by
  intro s c rest hport
  by_cases hword : c.word = 0x00000005
  · rw [if_pos hword, step_status hport hword]
  by_cases hf : s.engine.fault = 0x00
  case neg => rw [if_neg hword, if_pos hf, step_faulted hport hf hword]
  rw [if_neg hword, if_neg (not_not_intro hf)]
  cases hd : decode c.word with
  | illegal why => exact step_illegal hport hf hd
  | legal i =>
    obtain ⟨hrun, rfl⟩ := stepRunsTheDecodedInstruction s c rest i hport hd
    rw [hrun]
    cases i with
    | seed l => exact exec_seed_checks hf l
    | nextword => exact exec_nextword_checks hf
    | getbits n h => exact exec_getbits_checks hf n h
    | randint h => exact exec_randint_checks hf h
    | status => exact absurd (decode_eq_legal_iff.mp hd).2.symm hword

end Sys2Proof.Machine
end

section
/-! PROOFS of the family 70_reset_and_hazards.md: the reset input (R139), and what a command does to the generator's
state (R150). -/

namespace Sys2Proof.Machine

/-- Settles O8: the step on the reset input keeps nothing of the engine. -/
theorem resetMoveResetsTheEngine : Obligations.ResetMoveResetsTheEngine := fun _ _ _ hport => step_reset hport

/-- A command that draws steps the generator once, or twice when HIGH (41_bit_extractor.md R91, 42_ranged_integer.md
R108); any other leaves the generator's state alone, or is a `SEED` that loads its words (40_generator.md R77). -/
theorem CommandAnswer.draws_or_loads {s : State} {c : Command} {e : Engine} {code : Code} {r : Dword}
    (ha : CommandAnswer s c e code r) :
    (∃ m ≤ 2, e.S = (Engine.advance^[m] s.engine).S ∧ e.IDX = (Engine.advance^[m] s.engine).IDX) ∨
    (decode c.word = .legal (.seed 32) ∧ e.IDX = 0 ∧ c.seed = e.S.toList) := by
  cases ha with
  | rejected _ _ he => subst he; exact .inl ⟨0, by decide, rfl, rfl⟩
  | faulted _ _ _ he => subst he; exact .inl ⟨0, by decide, rfl, rfl⟩
  | status _ he => subst he; exact .inl ⟨0, by decide, rfl, rfl⟩
  | loaded hd _ hl _ he => subst he; exact .inr ⟨hd, seedWith_IDX _ _, (seedVector_toList hl).symm⟩
  | drawn high _ _ he =>
    subst he
    cases high with
    | false => exact .inl ⟨1, by decide, rfl, rfl⟩
    | true => exact .inl ⟨2, by decide, rfl, rfl⟩

/-- Settles O45, by the command's answer; a load's word is the one word of its instruction. -/
theorem commandsDrawAtMostTwoWords : Obligations.CommandsDrawAtMostTwoWords := by
  intro s s' c rest hport hs
  obtain ⟨e, code, r, rfl, ha⟩ := step_command_next hport hs
  rcases ha.draws_or_loads with hdraw | ⟨hd, hload⟩
  · exact .inl hdraw
  · exact .inr ⟨word_of_decode_seed hd, hload⟩

end Sys2Proof.Machine
end
